-- ==== Sys2Proof/Word.lean ====
section
/-! DEFINITION. The word types (00_scope R9, R10; 30_encoding R80). -/
namespace Sys2Proof

/-- A limb, and the machine word: 64 bits, bit 0 least significant (00_scope R8 `W`, R9, R10). -/
abbrev Word := BitVec 64

/-- A command word: 32 bits (30_encoding R80). -/
abbrev CmdWord := BitVec 32

/-- `ONES` = 2^64 - 1 (00_scope R9). -/
def ones : Word := BitVec.allOnes 64

end Sys2Proof
end

