-- ==== Sys2Proof/Config.lean ====
section
/-! DEFINITION. What a CORE instance fixes (00_scope R8, 10_state R36) and the free values. -/
namespace Sys2Proof

/-- The OPEN parameters of a CORE instance (00_scope R8; 92_eei_decisions D3, D22). They stand in
State so that every statement over all states holds for every instance; no step writes them.
`lmax = none` is LMAX unbounded; `sptBound` is SPT_BOUND. -/
structure Params where
  lmax : Option Nat
  spt : List Word
  sptBound : Nat
  deriving DecidableEq, Repr

/-- GEN_ROUNDS, the round count GENPRIME uses (00_scope R8, 92_eei_decisions D23). -/
def Config.genRounds : Nat := 40

/-- TMAX, the limb capacity of an internal temporary (00_scope R8, 10_state R34). -/
def Params.tmax (p : Params) : Option Nat := p.lmax.map fun l => 2 * l + 1

/-- FREE VALUE: the word the random-bit source answers at a position of its stream where State lists
none (20_memory R58 'puts no law on the words'; log entry 2). -/
opaque Config.rbsWord : Nat → Word

/-- FREE VALUE: the unspecified word a host read of S[i] or FAULTINFO returns while BUSY
(20_memory R61; log entry 6). -/
opaque Config.freeWord : Nat → Word

end Sys2Proof
end

