-- ==== Sys2Proof/Syntax.lean ====
section
/-! DEFINITION. The command set: one constructor per row of 30_encoding R84, operands in the order
`rd, ra, rb, rc` with the unused fields left out (30_encoding R88). -/
namespace Sys2Proof

/-- Number of a value register V0..V7 (10_state R20; legal field values, 30_encoding R82). -/
abbrev VReg := Fin 8

/-- Number of a scalar register S0..S7 (10_state R24; legal field values, 30_encoding R82). -/
abbrev SReg := Fin 8

/-- A command of 30_encoding R84. -/
inductive Instr where
  /-- `WRAP Vd, Sa` (40_limb_store R100). -/
  | wrap (rd : VReg) (ra : SReg)
  /-- `RANDOM Vd, Sa` (40_limb_store R102). -/
  | random (rd : VReg) (ra : SReg)
  /-- `MOV Vd, Va` (40_limb_store R103). -/
  | mov (rd ra : VReg)
  /-- `VCHK Va` (40_limb_store R104). -/
  | vchk (ra : VReg)
  /-- `VLEN Sd, Va` (40_limb_store R105). -/
  | vlen (rd : SReg) (ra : VReg)
  /-- `VGETL Sd, Va, Sb` (40_limb_store R106). -/
  | vgetl (rd : SReg) (ra : VReg) (rb : SReg)
  /-- `ADD Vd, Va, Vb` (41_add_sub_mul R133). -/
  | add (rd ra rb : VReg)
  /-- `SUB Vd, Va, Vb` (41_add_sub_mul R134). -/
  | sub (rd ra rb : VReg)
  /-- `MUL Vd, Va, Vb` (41_add_sub_mul R135). -/
  | mul (rd ra rb : VReg)
  /-- `SHL Vd, Va, Sb` (42_shift R150). -/
  | shl (rd ra : VReg) (rb : SReg)
  /-- `SHR Vd, Sb` (42_shift R151). -/
  | shr (rd : VReg) (rb : SReg)
  /-- `REM Vd, Va, Vb` (43_rem_cmp_bits R160). -/
  | rem (rd ra rb : VReg)
  /-- `CMP Sd, Va, Vb` (43_rem_cmp_bits R162). -/
  | cmp (rd : SReg) (ra rb : VReg)
  /-- `CMPW Sd, Va, Sb` (43_rem_cmp_bits R163). -/
  | cmpw (rd : SReg) (ra : VReg) (rb : SReg)
  /-- `BITLEN Sd, Va` (43_rem_cmp_bits R170). -/
  | bitlen (rd : SReg) (ra : VReg)
  /-- `TZCNT Sd, Va` (43_rem_cmp_bits R172). -/
  | tzcnt (rd : SReg) (ra : VReg)
  /-- `PARITY Sd, Va` (43_rem_cmp_bits R173). -/
  | parity (rd : SReg) (ra : VReg)
  /-- `DEC Vd` (43_rem_cmp_bits R174). -/
  | dec (rd : VReg)
  /-- `ORW Vd, Sb` (43_rem_cmp_bits R175). -/
  | orw (rd : VReg) (rb : SReg)
  /-- `MODPOW Vd, Va, Vb, Vc` (44_modpow R191). -/
  | modpow (rd ra rb rc : VReg)
  /-- `MODPOWW Vd, Va, Sb, Vc` (44_modpow R192). -/
  | modpoww (rd ra : VReg) (rb : SReg) (rc : VReg)
  /-- `MRTEST Sd, Va, Sb` (45_miller_rabin R202). -/
  | mrtest (rd : SReg) (ra : VReg) (rb : SReg)
  /-- `GENPRIME Vd, Sa` (46_prime_generator R221). -/
  | genprime (rd : VReg) (ra : SReg)
  deriving DecidableEq, Repr

/-- The pseudo-instruction `SQR Vd, Va` (30_encoding R89). -/
def Instr.sqr (rd ra : VReg) : Instr := .mul rd ra ra

end Sys2Proof
end

