-- ==== Sys2Proof/Machine/State.lean ====
section
/-! DEFINITION. The state of the machine as plain data (10_state), the reasons a step stops, and reset. -/
namespace Sys2Proof.Machine

/-- A limb vector (00_scope R11): `low` is limb 0, `high` the limbs from index 1 up, least significant
first. At least one limb is always present (10_state R21). -/
structure Value where
  low : Word
  high : List Word
  deriving DecidableEq, Repr

/-- The value zero, "a single zero limb" (10_state R21). -/
def Value.zero : Value := ⟨0, []⟩

/-- The three machine states (10_state R29, R38). `busy none`: the command has not begun; `busy (some b)`:
GENPRIME between two iterations, with its bit count (46_prime_generator R223). -/
inductive Mode where
  | idle
  | busy (bits : Option Word)
  | fault
  deriving DecidableEq, Repr

/-- The fault codes 1 to 7 (60_exceptions R241); code 0 is their absence. -/
inductive FaultCode where
  | illegalCmd
  | invariant
  | subUnderflow
  | divZero
  | decZero
  | badIndex
  | capacity
  deriving DecidableEq, Repr

/-- The random-bit source as the CORE sees it (20_memory R58): the words it is about to return where
they are listed, and how many it has returned. -/
structure Rbs where
  pending : List Word
  drawn : Nat
  deriving DecidableEq, Repr

/-- What the world outside the CORE does in a step (20_memory R51, R61; 70_reset_and_hazards R270, R277). -/
inductive HostEvent where
  /-- The host reads `width` bits at byte offset `off` of the window (20_memory R51). -/
  | read (off width : Nat)
  /-- The host writes the low `width` bits of `v` at byte offset `off` (20_memory R51). -/
  | write (off width : Nat) (v : Word)
  /-- The power-on reset input (70_reset_and_hazards R270). -/
  | powerOn
  /-- Nobody touches the CORE in this step: the CORE goes on. -/
  | pass
  /-- The host reads STATUS until BUSY = 0 (70_reset_and_hazards R277), the CORE going on meanwhile. -/
  | poll
  deriving DecidableEq, Repr

/-- Why the machine stops with a host-level fault. The spec's own faults are no stops: they are the machine
state FAULT, a next state (60_exceptions R244). -/
inductive Fault where
  /-- Raised by GENPRIME where the configured small-prime table holds 0, which is no table 20_memory R56
  allows (each entry is a prime). Safe: the model stops where the spec describes no machine. -/
  | zeroTableEntry
  deriving DecidableEq, Repr

/-- Why a step is given no meaning. -/
inductive Refusal where
  /-- Raised only by an arm of `exec` whose instruction has no meaning yet. Safe. -/
  | notModelled (mnemonic : String)
  /-- Raised by a host access that is no row of the window: "a model refuses (gives no meaning to) any
  host access that is not a row of the table" (20_memory R52). Safe. -/
  | notAWindowRow
  /-- Raised by VLEN, BITLEN and TZCNT where the count is 2^64 or more: "this spec leaves that case
  unspecified, and a model with unbounded `LMAX` refuses `VLEN` there" (40_limb_store R105,
  43_rem_cmp_bits R170, 92_eei_decisions D24). Safe. -/
  | countTooWide
  deriving DecidableEq, Repr

/-- The state of the machine. -/
structure State where
  /-- The OPEN parameters (00_scope R8, 10_state R36): configuration, written by no step. -/
  params : Params
  /-- V0..V7 (10_state R20). -/
  v : Vector Value 8
  /-- S0..S7 (10_state R24). -/
  s : Vector Word 8
  /-- The machine state, whose host view is STATUS (10_state R29). -/
  mode : Mode
  /-- The command word being executed, while BUSY (10_state R35). Outside BUSY the spec gives it no content
(93_implementation_defined U13); there the model leaves the last word in place (DESIGN CHOICE, log entry 3). -/
  cw : CmdWord
  /-- FAULTINFO.CODE (10_state R31). -/
  faultCode : Option FaultCode
  /-- FAULTINFO.CW (10_state R31). -/
  faultCw : CmdWord
  /-- The random-bit source (20_memory R58). -/
  rbs : Rbs
  /-- MODEL's own: how many unspecified words the host has read (20_memory R61; log entry 6). -/
  free : Nat
  /-- MODEL's own: what the host does next, first first (10_state R28; log entry 5). -/
  host : List HostEvent
  /-- MODEL's own: the word the latest host read returned (20_memory R51; log entry 5). -/
  reply : Option Word
  deriving DecidableEq, Repr

/-- The machine after power-on reset, for given parameters (10_state R37, 70_reset_and_hazards R271).
`cw` is unspecified there (DESIGN CHOICE 0, log entry 3); the random-bit source lists no word (DESIGN
CHOICE, log entry 2); the model's own fields are empty (log entries 5, 6). -/
def State.resetWith (p : Params) : State where
  params := p
  v := Vector.replicate 8 Value.zero
  s := Vector.replicate 8 0
  mode := .idle
  cw := 0
  faultCode := none
  faultCw := 0
  rbs := ⟨[], 0⟩
  free := 0
  host := []
  reply := none

/-- The machine right after reset. The parameters are OPEN (00_scope R8); this state takes LMAX unbounded
and the empty table (DESIGN CHOICE, log entry 1), and no statement rests on that. -/
def State.reset : State := State.resetWith ⟨none, [], 0⟩

end Sys2Proof.Machine
end

