-- ==== Sys2Proof/Machine/Flags.lean ====
section
/-! DEFINITION. The CORE has no condition flags (10_state R30). Here stand the carry, borrow and
double-width cells whose carries live inside one command (41_add_sub_mul R130 to R132), the word bit counts
(43_rem_cmp_bits R171), the numeric forms of results (43_rem_cmp_bits R162; 92_eei_decisions D15), and the
fields of STATUS and FAULTINFO (10_state R29, R31). -/
namespace Sys2Proof.Machine

/-- `ADC64(a, b, cin)`, the limb adder (41_add_sub_mul R130): sum and carry out. -/
def adc64 (a b : Word) (cin : Bool) : Word × Bool :=
  let acc := a.setWidth 128 + b.setWidth 128 + (BitVec.ofBool cin).setWidth 128
  (acc.extractLsb' 0 64, acc.extractLsb' 64 64 != 0#64)

/-- `SBB64(a, b, bin)`, the limb subtractor (41_add_sub_mul R131): difference and borrow out; the
comparison is on naturals. -/
def sbb64 (a b : Word) (bin : Bool) : Word × Bool :=
  if b.toNat + bin.toNat ≤ a.toNat then (BitVec.ofNat 64 (a.toNat - b.toNat - bin.toNat), false)
  else (BitVec.ofNat 64 (a.toNat + 2 ^ 64 - b.toNat - bin.toNat), true)

/-- `MUL64(a, b)`, the limb multiplier (41_add_sub_mul R132): low and high word. -/
def mul64 (a b : Word) : Word × Word :=
  let p := a.setWidth 128 * b.setWidth 128
  (p.extractLsb' 0 64, p.extractLsb' 64 64)

/-- `MAC64(o, a, b, c)`, its accumulate form (41_add_sub_mul R132): low and high word. -/
def mac64 (o a b c : Word) : Word × Word :=
  let acc := o.setWidth 128 + a.setWidth 128 * b.setWidth 128 + c.setWidth 128
  (acc.extractLsb' 0 64, acc.extractLsb' 64 64)

/-- `CLZ64(x)`; 64 at zero (43_rem_cmp_bits R171). -/
def clz64 (x : Word) : Nat := if x = 0#64 then 64 else 63 - Nat.log2 x.toNat

/-- `CTZ64(x)`, the place of the lowest set bit; 64 at zero (43_rem_cmp_bits R171). -/
def ctz64 (x : Word) : Nat := ((List.range 64).find? fun t => x.getLsbD t).getD 64

/-- The result word of CMP and CMPW: 0 equal, 1 greater, 2 less (43_rem_cmp_bits R162). -/
def orderWord (c : Ordering) : Word :=
  match c with
  | .eq => 0#64
  | .gt => 1#64
  | .lt => 2#64

/-- A bit or a verdict as a result word (43_rem_cmp_bits R173, 45_miller_rabin R202). -/
def boolWord (b : Bool) : Word := if b then 1#64 else 0#64

/-- The code number of a fault (60_exceptions R241). -/
def FaultCode.number (c : FaultCode) : BitVec 8 :=
  match c with
  | .illegalCmd => 1#8
  | .invariant => 2#8
  | .subUnderflow => 3#8
  | .divZero => 4#8
  | .decZero => 5#8
  | .badIndex => 6#8
  | .capacity => 7#8

/-- BUSY of STATUS (10_state R29). -/
def Mode.isBusy (m : Mode) : Bool :=
  match m with
  | .busy _ => true
  | .idle | .fault => false

/-- The register STATUS (10_state R29): BUSY in bit 0, FAULT in bit 1, the rest zero. -/
def State.statusWord (s : State) : Word :=
  match s.mode with
  | .idle => 0#64
  | .busy _ => 1#64
  | .fault => 2#64

/-- The register FAULTINFO (10_state R31): CODE in 7:0, CW in 39:8, the rest zero. -/
def State.faultInfoWord (s : State) : Word :=
  (s.faultCw.setWidth 64 <<< 8) ||| ((s.faultCode.map FaultCode.number).getD 0#8).setWidth 64

end Sys2Proof.Machine
end

