-- ==== Sys2Proof/Machine/Limbs.lean ====
section
/-! DEFINITION. The named functions on limb vectors (43_rem_cmp_bits R165), each the limb algorithm of its
rule: no capacity check, no register write. Lists of words are least significant limb first. -/
namespace Sys2Proof.Machine

/-- The limbs of a vector, index 0 first. -/
def Value.limbs (a : Value) : List Word := a.low :: a.high

/-- `len(L)` (00_scope R11). -/
def Value.len (a : Value) : Nat := a.high.length + 1

/-- The most significant limb, `L[len(L)-1]`. -/
def Value.top (a : Value) : Word := a.high.getLastD a.low

/-- The vector with the given limbs; the empty list, which no rule produces, gives zero. -/
def Value.ofLimbs (l : List Word) : Value :=
  match l with
  | [] => Value.zero
  | x :: xs => ⟨x, xs⟩

/-- `sum over i of L[i] * 2^(64*i)` (00_scope R11). -/
def limbsVal (l : List Word) : Nat :=
  match l with
  | [] => 0
  | x :: xs => x.toNat + 2 ^ 64 * limbsVal xs

/-- `val(L)` (00_scope R11). -/
def Value.val (a : Value) : Nat := limbsVal a.limbs

/-- `[w]`, one limb (40_limb_store R100). -/
def Value.ofWord (w : Word) : Value := ⟨w, []⟩

/-- `limbs(n)`, the normalized vector of a number (00_scope R11), by the formulas of 10_state R22. -/
def limbsOf (n : Nat) : Value :=
  Value.ofLimbs ((List.range (Nat.log2 n / 64 + 1)).map fun j => BitVec.ofNat 64 (n / 2 ^ (64 * j)))

/-- A normalized vector (00_scope R11), which is the validity assertion of 40_limb_store R108. -/
def Value.valid (a : Value) : Bool := a.high.isEmpty || a.top != 0#64

/-- The limbs without the high zero limbs. -/
def stripHigh (l : List Word) : List Word :=
  match l with
  | [] => []
  | x :: xs =>
    match stripHigh xs with
    | [] => if x = 0#64 then [] else [x]
    | y :: ys => x :: y :: ys

/-- `norm(L)`: high zero limbs removed, one limb kept (00_scope R11, 40_limb_store R107). -/
def norm (l : List Word) : Value := Value.ofLimbs (stripHigh l)

/-- The loop of ADD over `n` limb positions, a missing limb read as zero, the last carry appended
(41_add_sub_mul R133). -/
def addLimbs (n : Nat) (a b : List Word) (carry : Bool) : List Word :=
  match n with
  | 0 => if carry then [1#64] else []
  | n + 1 =>
    (adc64 (a.headD 0#64) (b.headD 0#64) carry).1
      :: addLimbs n a.tail b.tail (adc64 (a.headD 0#64) (b.headD 0#64) carry).2

/-- `Add(A, B)` (41_add_sub_mul R133). -/
def addV (a b : Value) : Value := norm (addLimbs (max a.len b.len) a.limbs b.limbs false)

/-- The loop of SUB over the minuend's limbs, a missing limb of the subtrahend read as zero
(41_add_sub_mul R134). -/
def subLimbs (a b : List Word) (borrow : Bool) : List Word :=
  match a with
  | [] => []
  | x :: xs => (sbb64 x (b.headD 0#64) borrow).1 :: subLimbs xs b.tail (sbb64 x (b.headD 0#64) borrow).2

/-- `Sub(A, B)` where A is not less than B (41_add_sub_mul R134). -/
def subV (a b : Value) : Value := norm (subLimbs a.limbs b.limbs false)

/-- One row of MUL: `x` times every limb of `b` accumulated into the slots `out`, a slot not yet written
read as zero, the row's last carry stored in the next slot (41_add_sub_mul R135). -/
def macRow (x : Word) (out b : List Word) (carry : Word) : List Word :=
  match b with
  | [] => [carry]
  | y :: ys =>
    (mac64 (out.headD 0#64) x y carry).1 :: macRow x out.tail ys (mac64 (out.headD 0#64) x y carry).2

/-- The rows of MUL, one per limb of the first operand, each one slot higher than the one before; `out`
holds the slots from the row's own up (41_add_sub_mul R135). -/
def mulRows (a b out : List Word) : List Word :=
  match a with
  | [] => out
  | x :: xs => (macRow x out b 0#64).headD 0#64 :: mulRows xs b (macRow x out b 0#64).tail

/-- `Mul(A, B)` with the zero short circuit (41_add_sub_mul R135). -/
def mulV (a b : Value) : Value :=
  if a = Value.zero ∨ b = Value.zero then Value.zero else norm (mulRows a.limbs b.limbs [])

/-- The sub-limb part of SHL by `r` bits, 0 to 63 (42_shift R150). -/
def shlLimbs (r : Nat) (l : List Word) (carry : Word) : List Word :=
  match l with
  | [] => if r = 0 then [] else [carry]
  | x :: xs =>
    if r = 0 then x :: shlLimbs r xs carry
    else ((x <<< r) ||| carry) :: shlLimbs r xs (x >>> (64 - r))

/-- `Shl(A, k)`; zero limbs are not materialized for the value zero (42_shift R150). -/
def shlV (a : Value) (k : Nat) : Value :=
  if a = Value.zero then Value.zero
  else norm (List.replicate (k / 64) 0#64 ++ shlLimbs (k % 64) a.limbs 0#64)

/-- The sub-limb part of SHR by `r` bits, 0 to 63 (42_shift R151). -/
def shrLimbs (r : Nat) (l : List Word) : List Word :=
  match l with
  | [] => []
  | x :: xs => ((x >>> r) ||| (if r = 0 then 0#64 else xs.headD 0#64 <<< (64 - r))) :: shrLimbs r xs

/-- `Shr(A, k)` (42_shift R151). -/
def shrV (a : Value) (k : Nat) : Value :=
  if a.len ≤ k / 64 then Value.zero else norm (shrLimbs (k % 64) (a.limbs.drop (k / 64)))

/-- Comparison of equally long limb lists given most significant limb first (43_rem_cmp_bits R161). -/
def compareTop (a b : List Word) : Ordering :=
  match a, b with
  | x :: xs, y :: ys => if y < x then .gt else if x < y then .lt else compareTop xs ys
  | _, _ => .eq

/-- `Compare(A, B)` (43_rem_cmp_bits R161). -/
def compareV (a b : Value) : Ordering :=
  if b.len < a.len then .gt
  else if a.len < b.len then .lt
  else compareTop a.limbs.reverse b.limbs.reverse

/-- `CompareWord(A, w)` (43_rem_cmp_bits R163). -/
def compareWord (a : Value) (w : Word) : Ordering :=
  if 1 < a.len then .gt else if w < a.low then .gt else if a.low < w then .lt else .eq

/-- `BitLen(A)` (43_rem_cmp_bits R170). -/
def bitLen (a : Value) : Nat := (a.len - 1) * 64 + (64 - clz64 a.top)

/-- The scan of TZCNT from limb `i` on (43_rem_cmp_bits R172). -/
def tzScan (i : Nat) (l : List Word) : Nat :=
  match l with
  | [] => 64 * i
  | x :: xs => if x ≠ 0#64 then i * 64 + ctz64 x else tzScan (i + 1) xs

/-- `TzCount(A)` (43_rem_cmp_bits R172). -/
def tzCount (a : Value) : Nat := tzScan 0 a.limbs

/-- `Parity(A)`, bit 0 of limb 0 (43_rem_cmp_bits R173). -/
def parityV (a : Value) : Bool := a.low.getLsbD 0

/-- The borrow loop of DEC (43_rem_cmp_bits R174). -/
def decLimbs (l : List Word) : List Word :=
  match l with
  | [] => []
  | x :: xs => if x = 0#64 then ones :: decLimbs xs else (x - 1#64) :: xs

/-- `Dec(A)` where A is not zero (43_rem_cmp_bits R174). -/
def decV (a : Value) : Value := norm (decLimbs a.limbs)

/-- `OrWord(A, w)` (43_rem_cmp_bits R175). -/
def orWordV (a : Value) (w : Word) : Value := ⟨a.low ||| w, a.high⟩

/-- The loop of REM: one iteration for each shift amount `n - 1` down to 0 (43_rem_cmp_bits R160). -/
def remLoop (m : Value) (n : Nat) (r : Value) : Value :=
  match n with
  | 0 => r
  | sh + 1 =>
    remLoop m sh (if compareV r (shlV m sh) = .lt then r else subV r (shlV m sh))

/-- `Rem(A, M)` where M is not zero (43_rem_cmp_bits R160). -/
def remV (a m : Value) : Value :=
  if compareV a m = .lt then a else norm (remLoop m (bitLen a - bitLen m + 1) a).limbs

end Sys2Proof.Machine
end

