-- ==== Sys2Proof/Machine/Ops.lean ====
section
/-! DEFINITION. The named operations on the state: register reads and writes, starting and ending a command,
taking a fault (60_exceptions R244), leaving FAULT by reset (70_reset_and_hazards R271). -/
namespace Sys2Proof.Machine

/-- What a step or a command answers. -/
abbrev Res := Host.Outcome State Fault Refusal

/-- `V[r]` (00_scope R12). -/
def State.readV (s : State) (r : VReg) : Value := s.v.get r

/-- `S[r]` (00_scope R12). -/
def State.readS (s : State) (r : SReg) : Word := s.s.get r

/-- `V[r] <- x` (00_scope R12). -/
def State.writeV (s : State) (r : VReg) (x : Value) : State := { s with v := s.v.set r.val x }

/-- `S[r] <- w` (00_scope R12). -/
def State.writeS (s : State) (r : SReg) (w : Word) : State := { s with s := s.s.set r.val w }

/-- The machine state changes (10_state R38). -/
def State.setMode (s : State) (m : Mode) : State := { s with mode := m }

/-- The random-bit source has advanced. -/
def State.setRbs (s : State) (r : Rbs) : State := { s with rbs := r }

/-- What the host does next. -/
def State.setHost (s : State) (es : List HostEvent) : State := { s with host := es }

/-- A host read is answered. -/
def State.answer (s : State) (w : Word) : State := { s with reply := some w }

/-- `BUSY --command completes--> IDLE` (10_state R38). The sequencer's word, which the spec leaves open between
commands, stays as it was (DESIGN CHOICE, log entry 3). -/
def State.complete (s : State) : State := s.setMode .idle

/-- `IDLE --CMD write--> BUSY` with the word written (10_state R33, R38). -/
def State.start (s : State) (cw : CmdWord) : State := { s with cw := cw, mode := .busy none }

/-- Fault entry, `raise Fault(code)` (60_exceptions R244): CODE, CW, BUSY and FAULT, nothing else. There is
no return from a fault but reset (60_exceptions R246). The sequencer's word, which the spec leaves open after a fault,
stays as it was (DESIGN CHOICE, log entry 3). -/
def State.raise (s : State) (c : FaultCode) : State :=
  { s with faultCode := some c, faultCw := s.cw, mode := .fault }

/-- Reset (70_reset_and_hazards R271): the table of 10_state R37; the parameters, the random-bit source and
the host are untouched. -/
def State.resetCore (s : State) : State :=
  { State.resetWith s.params with rbs := s.rbs, free := s.free, host := s.host, reply := s.reply }

/-- An unspecified word for the host (20_memory R61), a free value, and the state with the next one up. -/
def State.answerFree (s : State) : State :=
  { s with reply := some (Config.freeWord s.free), free := s.free + 1 }

/-- A number of limbs above LMAX (10_state R23, 40_limb_store R109). -/
def State.overLimbs (s : State) (n : Nat) : Bool :=
  match s.params.lmax with
  | none => false
  | some l => l < n

/-- A number of bits above `64*LMAX` (40_limb_store R102, 42_shift R150, 46_prime_generator R221). -/
def State.overBits (s : State) (n : Nat) : Bool :=
  match s.params.lmax with
  | none => false
  | some l => 64 * l < n

end Sys2Proof.Machine
end

