-- ==== Sys2Proof/Machine/Operands.lean ====
section
/-! DEFINITION. Operand forms: a value source with its validity assertion (40_limb_store R108), and the ways a
result reaches its destination (40_limb_store R109; 10_state R26: sources first, destination last). Scalar
operands are read as they are (30_encoding R85). -/
namespace Sys2Proof.Machine

/-- A value source: `Fault(INVARIANT)` unless it is normalized (40_limb_store R108). Nested uses check the
fields in the order they are written (60_exceptions R243). -/
def withValue (r : VReg) (s : State) (k : Value → Res) : Res :=
  if (s.readV r).valid then k (s.readV r) else .next (s.raise .invariant)

/-- The command's own precondition, checked before its result is computed (60_exceptions R243). -/
def require (ok : Bool) (c : FaultCode) (s : State) (k : Res) : Res :=
  if ok then k else .next (s.raise c)

/-- The command ends with `V[r] <- x`. -/
def finishV (r : VReg) (x : Value) (s : State) : Res := .next (s.writeV r x).complete

/-- The command ends with `S[r] <- w`. -/
def finishS (r : SReg) (w : Word) (s : State) : Res := .next (s.writeS r w).complete

/-- The command ends with `V[r] <- x` after the capacity check on the normalized result
(40_limb_store R109). -/
def finishChecked (r : VReg) (x : Value) (s : State) : Res :=
  require (!s.overLimbs x.len) .capacity s (finishV r x s)

/-- The command ends with `S[r] <- n`; a count that does not fit a word is refused, as 40_limb_store R105
and 43_rem_cmp_bits R170 say. -/
def finishCount (r : SReg) (n : Nat) (s : State) : Res :=
  if n < 2 ^ 64 then finishS r (BitVec.ofNat 64 n) s else .refused .countTooWide

end Sys2Proof.Machine
end

