-- ==== Sys2Proof/Machine/Arithmetic.lean ====
section
/-! DEFINITION. Limb adder, subtractor, multiplier and shifter commands (41_add_sub_mul, 42_shift). -/
namespace Sys2Proof.Machine

/-- `ADD Vd, Va, Vb` (41_add_sub_mul R133). -/
def execAdd (rd ra rb : VReg) (s : State) : Res :=
  withValue ra s fun a => withValue rb s fun b => finishChecked rd (addV a b) s

/-- `SUB Vd, Va, Vb` (41_add_sub_mul R134). -/
def execSub (rd ra rb : VReg) (s : State) : Res :=
  withValue ra s fun a => withValue rb s fun b =>
    require (compareV a b != .lt) .subUnderflow s (finishV rd (subV a b) s)

/-- `MUL Vd, Va, Vb` (41_add_sub_mul R135). -/
def execMul (rd ra rb : VReg) (s : State) : Res :=
  withValue ra s fun a => withValue rb s fun b => finishChecked rd (mulV a b) s

/-- `SHL Vd, Va, Sb` (42_shift R150): `CAPACITY` when the value is not zero and `bitlen + k > 64*LMAX`, which
is the check on the normalized result without materializing its zero limbs. -/
def execShl (rd ra : VReg) (rb : SReg) (s : State) : Res :=
  withValue ra s fun a =>
    require (a = Value.zero || !s.overBits (bitLen a + (s.readS rb).toNat)) .capacity s
      (finishV rd (shlV a (s.readS rb).toNat) s)

/-- `SHR Vd, Sb` (42_shift R151), in place. -/
def execShr (rd : VReg) (rb : SReg) (s : State) : Res :=
  withValue rd s fun a => finishV rd (shrV a (s.readS rb).toNat) s

end Sys2Proof.Machine
end

