-- ==== Sys2Proof/Machine/Composite.lean ====
section
/-! DEFINITION. The composite functions: RandValue (40_limb_store R101), ModPow (44_modpow R190), MillerRabin
(45_miller_rabin R200), GenIter (46_prime_generator R220). Those that draw thread the random-bit source. -/
namespace Sys2Proof.Machine

/-- `Draw()` (20_memory R58): the next listed word, else the source's free word at this position. -/
def Rbs.draw (r : Rbs) : Word × Rbs :=
  match r.pending with
  | w :: ws => (w, ⟨ws, r.drawn + 1⟩)
  | [] => (Config.rbsWord r.drawn, ⟨[], r.drawn + 1⟩)

/-- `n` draws, word j becoming limb j (20_memory R59). -/
def Rbs.drawMany (n : Nat) (r : Rbs) : List Word × Rbs :=
  match n with
  | 0 => ([], r)
  | n + 1 => (r.draw.1 :: (Rbs.drawMany n r.draw.2).1, (Rbs.drawMany n r.draw.2).2)

/-- The top limb of RandValue: masked to the partial limb's `k mod 64` bits, bit `(k-1) mod 64` forced
(40_limb_store R101; 92_eei_decisions D12). -/
def shapeTop (k : Nat) (w : Word) : Word :=
  (if k % 64 = 0 then w else w &&& BitVec.ofNat 64 (2 ^ (k % 64) - 1))
    ||| BitVec.ofNat 64 (2 ^ ((k - 1) % 64))

/-- The drawn limbs with the last one shaped (40_limb_store R101). -/
def shapeLimbs (k : Nat) (l : List Word) : List Word :=
  match l with
  | [] => []
  | [w] => [shapeTop k w]
  | w :: x :: xs => w :: shapeLimbs k (x :: xs)

/-- `RandValue(k)` (40_limb_store R101): `k = 0` gives zero without a draw. -/
def randValue (k : Nat) (r : Rbs) : Value × Rbs :=
  if k = 0 then (Value.zero, r)
  else (norm (shapeLimbs k (Rbs.drawMany ((k + 63) / 64) r).1), (Rbs.drawMany ((k + 63) / 64) r).2)

/-- The loop of ModPow, with at most `n` iterations left: running result `r`, base `b`, exponent `e`
(44_modpow R190: the loop runs exactly `BitLen(E)` times). -/
def modPowLoop (m : Value) (n : Nat) (r b e : Value) : Value :=
  match n with
  | 0 => r
  | n + 1 =>
    if e = Value.zero then r
    else modPowLoop m n (if parityV e then remV (mulV r b) m else r) (remV (mulV b b) m) (shrV e 1)

/-- `ModPow(B, E, M)` where M is not zero (44_modpow R190). -/
def modPow (b e m : Value) : Value := modPowLoop m (bitLen e) (Value.ofWord 1#64) (remV b m) e

/-- The inner squaring loop of MillerRabin, with `j` squarings left: whether x becomes n-1
(45_miller_rabin R200, R201). -/
def mrSquarings (n nm1 : Value) (j : Nat) (x : Value) : Bool :=
  match j with
  | 0 => false
  | j + 1 =>
    if compareV (remV (mulV x x) n) nm1 = .eq then true
    else mrSquarings n nm1 j (remV (mulV x x) n)

/-- Whether the round with witness `a` passes, for `n - 1 = d * 2^s` (45_miller_rabin R200). -/
def mrRound (n nm1 d : Value) (s : Nat) (a : Value) : Bool :=
  if compareWord (modPow a d n) 1#64 = .eq ∨ compareV (modPow a d n) nm1 = .eq then true
  else mrSquarings n nm1 (s - 1) (modPow a d n)

/-- The witness loop of MillerRabin with `k` rounds left, each witness `RandValue(bl - 1)`; no draw after
a rejection (45_miller_rabin R200, R203). -/
def mrRounds (n nm1 d : Value) (s bl k : Nat) (r : Rbs) : Bool × Rbs :=
  match k with
  | 0 => (true, r)
  | k + 1 =>
    if mrRound n nm1 d s (randValue (bl - 1) r).1 then mrRounds n nm1 d s bl k (randValue (bl - 1) r).2
    else (false, (randValue (bl - 1) r).2)

/-- `MillerRabin(N, k)`: true is ACCEPT, false REJECT (45_miller_rabin R200). -/
def millerRabin (n : Value) (k : Nat) (r : Rbs) : Bool × Rbs :=
  if compareWord n 2#64 = .lt then (false, r)
  else if compareWord n 2#64 = .eq then (true, r)
  else if compareWord n 3#64 = .eq then (true, r)
  else if !parityV n then (false, r)
  else mrRounds n (decV n) (shrV (decV n) (tzCount (decV n))) (tzCount (decV n)) (bitLen n) k r

/-- The pre-filter: some entry of the table, scanned in order, divides the candidate
(46_prime_generator R222). -/
def tableDivides (spt : List Word) (c : Value) : Bool :=
  spt.any fun p => remV c (Value.ofWord p) = Value.zero

/-- The candidate of an iteration: `bits` random bits, the lowest forced to 1 (46_prime_generator R220). -/
def candidate (bits : Nat) (r : Rbs) : Value × Rbs :=
  (orWordV (randValue bits r).1 1#64, (randValue bits r).2)

/-- `GenIter(bits)`: `some C` is FOUND(C), `none` is RETRY (46_prime_generator R220). -/
def genIter (bits : Nat) (spt : List Word) (r : Rbs) : Option Value × Rbs :=
  if tableDivides spt (candidate bits r).1 then (none, (candidate bits r).2)
  else
    (if (millerRabin (candidate bits r).1 Config.genRounds (candidate bits r).2).1
      then some (candidate bits r).1 else none,
     (millerRabin (candidate bits r).1 Config.genRounds (candidate bits r).2).2)

end Sys2Proof.Machine
end

