-- ==== Sys2Proof/Machine/LimbStore.lean ====
section
/-! DEFINITION. The Limb Store commands (40_limb_store). -/
namespace Sys2Proof.Machine

/-- `WRAP Vd, Sa` (40_limb_store R100). -/
def execWrap (rd : VReg) (ra : SReg) (s : State) : Res := finishV rd (Value.ofWord (s.readS ra)) s

/-- `RANDOM Vd, Sa` (40_limb_store R102): the bit count is checked before any draw. -/
def execRandom (rd : VReg) (ra : SReg) (s : State) : Res :=
  require (!s.overBits (s.readS ra).toNat) .capacity s
    (finishV rd (randValue (s.readS ra).toNat s.rbs).1
      (s.setRbs (randValue (s.readS ra).toNat s.rbs).2))

/-- `MOV Vd, Va` (40_limb_store R103). -/
def execMov (rd ra : VReg) (s : State) : Res := withValue ra s fun a => finishV rd a s

/-- `VCHK Va` (40_limb_store R104): the validity assertion and nothing more. -/
def execVchk (ra : VReg) (s : State) : Res := withValue ra s fun _ => .next s.complete

/-- `VLEN Sd, Va` (40_limb_store R105). -/
def execVlen (rd : SReg) (ra : VReg) (s : State) : Res :=
  withValue ra s fun a => finishCount rd a.len s

/-- `VGETL Sd, Va, Sb` (40_limb_store R106). -/
def execVgetl (rd : SReg) (ra : VReg) (rb : SReg) (s : State) : Res :=
  withValue ra s fun a =>
    require ((s.readS rb).toNat < a.len) .badIndex s
      (finishS rd (a.limbs.getD (s.readS rb).toNat 0#64) s)

end Sys2Proof.Machine
end

