-- ==== Sys2Proof/Machine/ModExp.lean ====
section
/-! DEFINITION. Modular exponentiation (44_modpow). -/
namespace Sys2Proof.Machine

/-- `MODPOW Vd, Va, Vb, Vc` (44_modpow R191): a zero modulus faults whatever base and exponent are. -/
def execModpow (rd ra rb rc : VReg) (s : State) : Res :=
  withValue ra s fun b => withValue rb s fun e => withValue rc s fun m =>
    require (m ≠ Value.zero) .divZero s (finishV rd (modPow b e m) s)

/-- `MODPOWW Vd, Va, Sb, Vc` (44_modpow R192): the exponent is the wrapped word. -/
def execModpoww (rd ra : VReg) (rb : SReg) (rc : VReg) (s : State) : Res :=
  withValue ra s fun b => withValue rc s fun m =>
    require (m ≠ Value.zero) .divZero s (finishV rd (modPow b (Value.ofWord (s.readS rb)) m) s)

end Sys2Proof.Machine
end

