-- ==== Sys2Proof/Machine/Primality.lean ====
section
/-! DEFINITION. The primality tester and the prime generator (45_miller_rabin, 46_prime_generator). -/
namespace Sys2Proof.Machine

/-- `MRTEST Sd, Va, Sb` (45_miller_rabin R202). -/
def execMrtest (rd : SReg) (ra : VReg) (rb : SReg) (s : State) : Res :=
  withValue ra s fun n =>
    finishS rd (boolWord (millerRabin n (s.readS rb).toNat s.rbs).1)
      (s.setRbs (millerRabin n (s.readS rb).toNat s.rbs).2)

/-- One iteration of GENPRIME (46_prime_generator R221, R223): FOUND writes the register and completes,
RETRY stays BUSY with the bit count, no register changed. A table holding 0 is none 20_memory R56 allows. -/
def genStep (rd : VReg) (bits : Word) (s : State) : Res :=
  if s.params.spt.contains 0#64 then .fault .zeroTableEntry
  else
    match (genIter bits.toNat s.params.spt s.rbs).1 with
    | some c => finishV rd c (s.setRbs (genIter bits.toNat s.params.spt s.rbs).2)
    | none => .next ((s.setRbs (genIter bits.toNat s.params.spt s.rbs).2).setMode (.busy (some bits)))

/-- `GENPRIME Vd, Sa` (46_prime_generator R221), by iterations (R223): the first step reads and checks the
bit count, before any draw; a later one goes on with the count it held. -/
def execGenprime (rd : VReg) (ra : SReg) (s : State) : Res :=
  match s.mode with
  | .busy (some bits) => genStep rd bits s
  | .busy none | .idle | .fault =>
    require (!s.overBits (s.readS ra).toNat) .capacity s (genStep rd (s.readS ra) s)

end Sys2Proof.Machine
end

