-- ==== Sys2Proof/Machine/RemBits.lean ====
section
/-! DEFINITION. Remainder, comparison and bit utilities (43_rem_cmp_bits). -/
namespace Sys2Proof.Machine

/-- `REM Vd, Va, Vb` (43_rem_cmp_bits R160): the zero divisor is checked before anything else. -/
def execRem (rd ra rb : VReg) (s : State) : Res :=
  withValue ra s fun a => withValue rb s fun m =>
    require (m ≠ Value.zero) .divZero s (finishV rd (remV a m) s)

/-- `CMP Sd, Va, Vb` (43_rem_cmp_bits R162). -/
def execCmp (rd : SReg) (ra rb : VReg) (s : State) : Res :=
  withValue ra s fun a => withValue rb s fun b => finishS rd (orderWord (compareV a b)) s

/-- `CMPW Sd, Va, Sb` (43_rem_cmp_bits R163). -/
def execCmpw (rd : SReg) (ra : VReg) (rb : SReg) (s : State) : Res :=
  withValue ra s fun a => finishS rd (orderWord (compareWord a (s.readS rb))) s

/-- `BITLEN Sd, Va` (43_rem_cmp_bits R170). -/
def execBitlen (rd : SReg) (ra : VReg) (s : State) : Res :=
  withValue ra s fun a => finishCount rd (bitLen a) s

/-- `TZCNT Sd, Va` (43_rem_cmp_bits R172). -/
def execTzcnt (rd : SReg) (ra : VReg) (s : State) : Res :=
  withValue ra s fun a => finishCount rd (tzCount a) s

/-- `PARITY Sd, Va` (43_rem_cmp_bits R173). -/
def execParity (rd : SReg) (ra : VReg) (s : State) : Res :=
  withValue ra s fun a => finishS rd (boolWord (parityV a)) s

/-- `DEC Vd` (43_rem_cmp_bits R174), in place. -/
def execDec (rd : VReg) (s : State) : Res :=
  withValue rd s fun a => require (a ≠ Value.zero) .decZero s (finishV rd (decV a) s)

/-- `ORW Vd, Sb` (43_rem_cmp_bits R175), in place. -/
def execOrw (rd : VReg) (rb : SReg) (s : State) : Res :=
  withValue rd s fun a => finishV rd (orWordV a (s.readS rb)) s

end Sys2Proof.Machine
end

