-- ==== Sys2Proof/Machine/Dispatch.lean ====
section
/-! DEFINITION. One arm per command of 30_encoding R84. -/
namespace Sys2Proof.Machine

def exec (i : Instr) (s : State) : Host.Outcome State Fault Refusal :=
  match i with
  | .wrap rd ra => Sys2Proof.Machine.execWrap rd ra s
  | .random rd ra => Sys2Proof.Machine.execRandom rd ra s
  | .mov rd ra => Sys2Proof.Machine.execMov rd ra s
  | .vchk ra => Sys2Proof.Machine.execVchk ra s
  | .vlen rd ra => Sys2Proof.Machine.execVlen rd ra s
  | .vgetl rd ra rb => Sys2Proof.Machine.execVgetl rd ra rb s
  | .add rd ra rb => Sys2Proof.Machine.execAdd rd ra rb s
  | .sub rd ra rb => Sys2Proof.Machine.execSub rd ra rb s
  | .mul rd ra rb => Sys2Proof.Machine.execMul rd ra rb s
  | .shl rd ra rb => Sys2Proof.Machine.execShl rd ra rb s
  | .shr rd rb => Sys2Proof.Machine.execShr rd rb s
  | .rem rd ra rb => Sys2Proof.Machine.execRem rd ra rb s
  | .cmp rd ra rb => Sys2Proof.Machine.execCmp rd ra rb s
  | .cmpw rd ra rb => Sys2Proof.Machine.execCmpw rd ra rb s
  | .bitlen rd ra => Sys2Proof.Machine.execBitlen rd ra s
  | .tzcnt rd ra => Sys2Proof.Machine.execTzcnt rd ra s
  | .parity rd ra => Sys2Proof.Machine.execParity rd ra s
  | .dec rd => Sys2Proof.Machine.execDec rd s
  | .orw rd rb => Sys2Proof.Machine.execOrw rd rb s
  | .modpow rd ra rb rc => Sys2Proof.Machine.execModpow rd ra rb rc s
  | .modpoww rd ra rb rc => Sys2Proof.Machine.execModpoww rd ra rb rc s
  | .mrtest rd ra rb => Sys2Proof.Machine.execMrtest rd ra rb s
  | .genprime rd ra => Sys2Proof.Machine.execGenprime rd ra s

end Sys2Proof.Machine
end

