-- ==== Sys2Proof/WellFormed.lean ====
section
/-! DEFINITION. Which command words are legal (30_encoding R81, R82, R86): the four conditions of R86
on the fields of a word, each with the name of its violation. A term of `Instr` has legal register
numbers by its type, so well-formedness is a property of the words, checked before an `Instr` is built. -/
namespace Sys2Proof

/-- The fields of a command word (30_encoding R81). -/
structure Fields where
  op : BitVec 8
  rd : BitVec 4
  ra : BitVec 4
  rb : BitVec 4
  rc : BitVec 4
  z : BitVec 8
  deriving DecidableEq, Repr

/-- The layout of 30_encoding R81. -/
def Fields.ofWord (cw : CmdWord) : Fields where
  op := cw.extractLsb' 24 8
  rd := cw.extractLsb' 20 4
  ra := cw.extractLsb' 16 4
  rb := cw.extractLsb' 12 4
  rc := cw.extractLsb' 8 4
  z := cw.extractLsb' 0 8

/-- The class a command gives a register field (30_encoding R82). -/
inductive FieldClass where
  | value
  | scalar
  | unused
  deriving DecidableEq, Repr

/-- The classes of `rd`, `ra`, `rb`, `rc` (30_encoding R84, column `format`). -/
structure Format where
  rd : FieldClass
  ra : FieldClass
  rb : FieldClass
  rc : FieldClass
  deriving DecidableEq, Repr

/-- Column `format` of 30_encoding R84; `none` for an opcode that selects no command (R83). -/
def formatOf (op : BitVec 8) : Option Format :=
  match op with
  | 0x01#8 => some ⟨.value, .scalar, .unused, .unused⟩
  | 0x02#8 => some ⟨.value, .scalar, .unused, .unused⟩
  | 0x03#8 => some ⟨.value, .value, .unused, .unused⟩
  | 0x04#8 => some ⟨.unused, .value, .unused, .unused⟩
  | 0x05#8 => some ⟨.scalar, .value, .unused, .unused⟩
  | 0x06#8 => some ⟨.scalar, .value, .scalar, .unused⟩
  | 0x10#8 => some ⟨.value, .value, .value, .unused⟩
  | 0x11#8 => some ⟨.value, .value, .value, .unused⟩
  | 0x12#8 => some ⟨.value, .value, .value, .unused⟩
  | 0x13#8 => some ⟨.value, .value, .scalar, .unused⟩
  | 0x14#8 => some ⟨.value, .unused, .scalar, .unused⟩
  | 0x15#8 => some ⟨.value, .value, .value, .unused⟩
  | 0x16#8 => some ⟨.scalar, .value, .value, .unused⟩
  | 0x17#8 => some ⟨.scalar, .value, .scalar, .unused⟩
  | 0x18#8 => some ⟨.scalar, .value, .unused, .unused⟩
  | 0x19#8 => some ⟨.scalar, .value, .unused, .unused⟩
  | 0x1A#8 => some ⟨.scalar, .value, .unused, .unused⟩
  | 0x1B#8 => some ⟨.value, .unused, .unused, .unused⟩
  | 0x1C#8 => some ⟨.value, .unused, .scalar, .unused⟩
  | 0x20#8 => some ⟨.value, .value, .value, .value⟩
  | 0x21#8 => some ⟨.value, .value, .scalar, .value⟩
  | 0x30#8 => some ⟨.scalar, .value, .scalar, .unused⟩
  | 0x40#8 => some ⟨.value, .scalar, .unused, .unused⟩
  | _ => none

/-- Why a word is illegal (30_encoding R86's four conditions). -/
inductive Illegal where
  | unassignedOpcode
  | nonzeroZ
  | nonzeroUnusedField
  | registerAboveSeven
  deriving DecidableEq, Repr

/-- An unused field is legal only when 0000 (30_encoding R82). -/
def FieldClass.unusedOk (c : FieldClass) (f : BitVec 4) : Bool :=
  match c with
  | .unused => f == 0#4
  | .value | .scalar => true

/-- A used field is legal when its top bit is 0 (30_encoding R82). -/
def FieldClass.registerOk (c : FieldClass) (f : BitVec 4) : Bool :=
  match c with
  | .unused => true
  | .value | .scalar => !f.getLsbD 3

/-- Every unused field is zero (30_encoding R86). -/
def Format.unusedOk (m : Format) (f : Fields) : Bool :=
  m.rd.unusedOk f.rd && m.ra.unusedOk f.ra && m.rb.unusedOk f.rb && m.rc.unusedOk f.rc

/-- Every used field is 0 to 7 (30_encoding R86). -/
def Format.registersOk (m : Format) (f : Fields) : Bool :=
  m.rd.registerOk f.rd && m.ra.registerOk f.ra && m.rb.registerOk f.rb && m.rc.registerOk f.rc

/-- The first of 30_encoding R86's conditions a word's fields violate. -/
def Fields.illegal? (f : Fields) : Option Illegal :=
  match formatOf f.op with
  | none => some .unassignedOpcode
  | some m =>
    if f.z != 0#8 then some .nonzeroZ
    else if !m.unusedOk f then some .nonzeroUnusedField
    else if !m.registersOk f then some .registerAboveSeven
    else none

/-- A word is well-formed when it violates none of the conditions (30_encoding R86). -/
def wellFormed (cw : CmdWord) : Bool := (Fields.ofWord cw).illegal?.isNone

end Sys2Proof
end

