-- ==== Sys2Proof/Decode.lean ====
section
/-! DEFINITION. The decoder and the encoder (30_encoding R81, R84, R86), and the command table as data. -/
namespace Sys2Proof

/-- The register a legal field names (30_encoding R82). -/
def regOf (f : BitVec 4) : Fin 8 := Fin.ofNat 8 f.toNat

/-- The command an opcode selects, on the registers its fields name (30_encoding R84). -/
def buildInstr (f : Fields) : Except Illegal Instr :=
  match f.op with
  | 0x01#8 => .ok (.wrap (regOf f.rd) (regOf f.ra))
  | 0x02#8 => .ok (.random (regOf f.rd) (regOf f.ra))
  | 0x03#8 => .ok (.mov (regOf f.rd) (regOf f.ra))
  | 0x04#8 => .ok (.vchk (regOf f.ra))
  | 0x05#8 => .ok (.vlen (regOf f.rd) (regOf f.ra))
  | 0x06#8 => .ok (.vgetl (regOf f.rd) (regOf f.ra) (regOf f.rb))
  | 0x10#8 => .ok (.add (regOf f.rd) (regOf f.ra) (regOf f.rb))
  | 0x11#8 => .ok (.sub (regOf f.rd) (regOf f.ra) (regOf f.rb))
  | 0x12#8 => .ok (.mul (regOf f.rd) (regOf f.ra) (regOf f.rb))
  | 0x13#8 => .ok (.shl (regOf f.rd) (regOf f.ra) (regOf f.rb))
  | 0x14#8 => .ok (.shr (regOf f.rd) (regOf f.rb))
  | 0x15#8 => .ok (.rem (regOf f.rd) (regOf f.ra) (regOf f.rb))
  | 0x16#8 => .ok (.cmp (regOf f.rd) (regOf f.ra) (regOf f.rb))
  | 0x17#8 => .ok (.cmpw (regOf f.rd) (regOf f.ra) (regOf f.rb))
  | 0x18#8 => .ok (.bitlen (regOf f.rd) (regOf f.ra))
  | 0x19#8 => .ok (.tzcnt (regOf f.rd) (regOf f.ra))
  | 0x1A#8 => .ok (.parity (regOf f.rd) (regOf f.ra))
  | 0x1B#8 => .ok (.dec (regOf f.rd))
  | 0x1C#8 => .ok (.orw (regOf f.rd) (regOf f.rb))
  | 0x20#8 => .ok (.modpow (regOf f.rd) (regOf f.ra) (regOf f.rb) (regOf f.rc))
  | 0x21#8 => .ok (.modpoww (regOf f.rd) (regOf f.ra) (regOf f.rb) (regOf f.rc))
  | 0x30#8 => .ok (.mrtest (regOf f.rd) (regOf f.ra) (regOf f.rb))
  | 0x40#8 => .ok (.genprime (regOf f.rd) (regOf f.ra))
  | _ => .error .unassignedOpcode

/-- Decode (30_encoding R86), total on the 2^32 words. An illegal word is rejected with the name of the
condition it violates; the CORE records `ILLEGAL_CMD` for each of them alike (60_exceptions R241). -/
def decode (cw : CmdWord) : Except Illegal Instr :=
  match (Fields.ofWord cw).illegal? with
  | some why => .error why
  | none => buildInstr (Fields.ofWord cw)

/-- The fields laid out as 30_encoding R81 says, `z` zero. -/
def packWord (op : BitVec 8) (rd ra rb rc : Fin 8) : CmdWord :=
  (op.setWidth 32 <<< 24) ||| (BitVec.ofNat 32 rd.val <<< 20) ||| (BitVec.ofNat 32 ra.val <<< 16)
    ||| (BitVec.ofNat 32 rb.val <<< 12) ||| (BitVec.ofNat 32 rc.val <<< 8)

/-- The word of a command (30_encoding R84); an unused field is 0. -/
def encode (i : Instr) : CmdWord :=
  match i with
  | .wrap rd ra => packWord 0x01#8 rd ra 0 0
  | .random rd ra => packWord 0x02#8 rd ra 0 0
  | .mov rd ra => packWord 0x03#8 rd ra 0 0
  | .vchk ra => packWord 0x04#8 0 ra 0 0
  | .vlen rd ra => packWord 0x05#8 rd ra 0 0
  | .vgetl rd ra rb => packWord 0x06#8 rd ra rb 0
  | .add rd ra rb => packWord 0x10#8 rd ra rb 0
  | .sub rd ra rb => packWord 0x11#8 rd ra rb 0
  | .mul rd ra rb => packWord 0x12#8 rd ra rb 0
  | .shl rd ra rb => packWord 0x13#8 rd ra rb 0
  | .shr rd rb => packWord 0x14#8 rd 0 rb 0
  | .rem rd ra rb => packWord 0x15#8 rd ra rb 0
  | .cmp rd ra rb => packWord 0x16#8 rd ra rb 0
  | .cmpw rd ra rb => packWord 0x17#8 rd ra rb 0
  | .bitlen rd ra => packWord 0x18#8 rd ra 0 0
  | .tzcnt rd ra => packWord 0x19#8 rd ra 0 0
  | .parity rd ra => packWord 0x1A#8 rd ra 0 0
  | .dec rd => packWord 0x1B#8 rd 0 0 0
  | .orw rd rb => packWord 0x1C#8 rd 0 rb 0
  | .modpow rd ra rb rc => packWord 0x20#8 rd ra rb rc
  | .modpoww rd ra rb rc => packWord 0x21#8 rd ra rb rc
  | .mrtest rd ra rb => packWord 0x30#8 rd ra rb 0
  | .genprime rd ra => packWord 0x40#8 rd ra 0 0

/-- A row of 30_encoding R84: `cw` encodes its command exactly when `cw AND mask = pattern`. -/
structure Row where
  mnemonic : String
  pattern : CmdWord
  mask : CmdWord
  deriving DecidableEq, Repr

/-- The test of 30_encoding R84. -/
def Row.selects (r : Row) (cw : CmdWord) : Bool := cw &&& r.mask == r.pattern

/-- The columns mnemonic, `match` and `mask` of 30_encoding R84, Limb Store rows. -/
def limbStoreRows : List Row :=
  [⟨"WRAP", 0x01000000#32, 0xFF88FFFF#32⟩, ⟨"RANDOM", 0x02000000#32, 0xFF88FFFF#32⟩,
   ⟨"MOV", 0x03000000#32, 0xFF88FFFF#32⟩, ⟨"VCHK", 0x04000000#32, 0xFFF8FFFF#32⟩,
   ⟨"VLEN", 0x05000000#32, 0xFF88FFFF#32⟩, ⟨"VGETL", 0x06000000#32, 0xFF888FFF#32⟩]

/-- The same columns, Arithmetic Engine rows. -/
def arithmeticRows : List Row :=
  [⟨"ADD", 0x10000000#32, 0xFF888FFF#32⟩, ⟨"SUB", 0x11000000#32, 0xFF888FFF#32⟩,
   ⟨"MUL", 0x12000000#32, 0xFF888FFF#32⟩, ⟨"SHL", 0x13000000#32, 0xFF888FFF#32⟩,
   ⟨"SHR", 0x14000000#32, 0xFF8F8FFF#32⟩, ⟨"REM", 0x15000000#32, 0xFF888FFF#32⟩,
   ⟨"CMP", 0x16000000#32, 0xFF888FFF#32⟩, ⟨"CMPW", 0x17000000#32, 0xFF888FFF#32⟩,
   ⟨"BITLEN", 0x18000000#32, 0xFF88FFFF#32⟩, ⟨"TZCNT", 0x19000000#32, 0xFF88FFFF#32⟩,
   ⟨"PARITY", 0x1A000000#32, 0xFF88FFFF#32⟩, ⟨"DEC", 0x1B000000#32, 0xFF8FFFFF#32⟩,
   ⟨"ORW", 0x1C000000#32, 0xFF8F8FFF#32⟩]

/-- The same columns, the composite commands' rows. -/
def compositeRows : List Row :=
  [⟨"MODPOW", 0x20000000#32, 0xFF8888FF#32⟩, ⟨"MODPOWW", 0x21000000#32, 0xFF8888FF#32⟩,
   ⟨"MRTEST", 0x30000000#32, 0xFF888FFF#32⟩, ⟨"GENPRIME", 0x40000000#32, 0xFF88FFFF#32⟩]

/-- The complete command table (30_encoding R84). -/
def commandTable : List Row := limbStoreRows ++ arithmeticRows ++ compositeRows

/-- What the decoder reads from a word given by its low `nbits` bits, the rest zero; nothing where the
word is illegal or longer than a command (30_encoding R80). -/
def decodeTableWord (nbits w : Nat) : Option Instr :=
  if nbits ≤ 32 then (decode (BitVec.ofNat 32 (w % 2 ^ nbits))).toOption else none

end Sys2Proof
end

