-- ==== Sys2Proof/Machine/HostWindow.lean ====
section
/-! DEFINITION. The host register window (20_memory R51, R52, R55, R61). -/
namespace Sys2Proof.Machine

/-- A row of the window (20_memory R51). -/
inductive WindowRow where
  | cmd
  | status
  | faultInfo
  | ctrl
  | reserved
  | scalar (i : SReg)
  deriving DecidableEq, Repr

/-- The row an access names: exactly a listed offset with the listed width, 32 bits for CMD and 64 bits for the others,
never narrower, wider or misaligned (20_memory R51, R52). The reserved row is a range: its registers are read as the
64-bit ones at 0x20, 0x28, 0x30 and 0x38 (DEDUCED, log entry 8). -/
def windowRow (off width : Nat) : Option WindowRow :=
  if off = 0x00 ∧ width = 32 then some .cmd
  else if off = 0x08 ∧ width = 64 then some .status
  else if off = 0x10 ∧ width = 64 then some .faultInfo
  else if off = 0x18 ∧ width = 64 then some .ctrl
  else if 0x20 ≤ off ∧ off < 0x40 ∧ width = 64 ∧ off % 8 = 0 then some .reserved
  else if 0x40 ≤ off ∧ off < 0x80 ∧ width = 64 ∧ off % 8 = 0 then
    some (.scalar (Fin.ofNat 8 ((off - 0x40) / 8)))
  else none

/-- A host read of a row (20_memory R51, R61): CMD, CTRL and the reserved range read as 0; while BUSY, S[i] and
FAULTINFO read as an unspecified word. -/
def readRow (row : WindowRow) (s : State) : State :=
  match row with
  | .cmd | .ctrl | .reserved => s.answer 0#64
  | .status => s.answer s.statusWord
  | .faultInfo => if s.mode.isBusy then s.answerFree else s.answer s.faultInfoWord
  | .scalar i => if s.mode.isBusy then s.answerFree else s.answer (s.readS i)

/-- A host write of a row (20_memory R51, R61; 10_state R32, R33): CMD and S[i] only in IDLE, CTRL bit 0 resets
in any machine state, everything else is discarded. -/
def writeRow (row : WindowRow) (v : Word) (s : State) : State :=
  match row with
  | .status | .faultInfo | .reserved => s
  | .ctrl => if v.getLsbD 0 then s.resetCore else s
  | .cmd => if s.mode = .idle then s.start (v.setWidth 32) else s
  | .scalar i => if s.mode = .idle then s.writeS i v else s

/-- A host read; an access that is no row of the window is refused (20_memory R52). -/
def hostRead (off width : Nat) (s : State) : Res :=
  match windowRow off width with
  | none => .refused .notAWindowRow
  | some row => .next (readRow row s)

/-- A host write; an access that is no row of the window is refused (20_memory R52). -/
def hostWrite (off width : Nat) (v : Word) (s : State) : Res :=
  match windowRow off width with
  | none => .refused .notAWindowRow
  | some row => .next (writeRow row v s)

/-- `.sets Si, w` (30_encoding R88). -/
def HostEvent.sets (i : SReg) (w : Word) : HostEvent := .write (0x40 + 8 * i.val) 64 w

/-- `.gets Si` (30_encoding R88). -/
def HostEvent.gets (i : SReg) : HostEvent := .read (0x40 + 8 * i.val) 64

/-- `.reset` (30_encoding R88). -/
def HostEvent.reset : HostEvent := .write 0x18 64 1#64

/-- The host issues a command word (10_state R33). -/
def HostEvent.issue (cw : CmdWord) : HostEvent := .write 0x00 32 (cw.setWidth 64)

end Sys2Proof.Machine
end

