-- ==== Sys2Proof/Machine/Sequencer.lean ====
section
/-! DEFINITION. Whose turn a step is, and what the CORE does in its turn (10_state R38; 70_reset_and_hazards R270,
R277; log entry 5). `execute` is the commands' meaning. -/
namespace Sys2Proof.Machine

/-- The CORE's turn (10_state R38, 30_encoding R86): while BUSY it executes the word it holds, an illegal
word raising `Fault(ILLEGAL_CMD)`; in IDLE and FAULT nothing changes (60_exceptions R246, R254). -/
def coreTurn (execute : Instr → State → Res) (s : State) : Res :=
  match s.mode with
  | .idle | .fault => .next s
  | .busy _ =>
    match decode s.cw with
    | .ok i => execute i s
    | .error _ => .next (s.raise .illegalCmd)

/-- One step: the host's next event, or the CORE's turn where the host has none or passes. -/
def takeTurn (execute : Instr → State → Res) (s : State) : Res :=
  match s.host with
  | [] => coreTurn execute s
  | .pass :: es => coreTurn execute (s.setHost es)
  | .poll :: es =>
    if s.mode.isBusy then coreTurn execute (s.answer s.statusWord)
    else .next ((s.answer s.statusWord).setHost es)
  | .powerOn :: es => .next (s.setHost es).resetCore
  | .read off width :: es => hostRead off width (s.setHost es)
  | .write off width v :: es => hostWrite off width v (s.setHost es)

end Sys2Proof.Machine
end

