-- ==== Sys2Proof/Machine/Step.lean ====
section
/-! DEFINITION. One step, and the word the CORE runs next. -/
namespace Sys2Proof.Machine

/-- One step of the machine (10_state R38; 92_eei_decisions D32). -/
def step (s : State) : Host.Outcome State Fault Refusal := takeTurn exec s

/-- `s` with the word as the one the CORE has accepted from CMD and executes in its next turn, which is the
next step (10_state R33, R38; log entry 7). -/
def State.withFetchWord (s : State) (nbits w : Nat) : State :=
  (s.start (BitVec.ofNat 32 (w % 2 ^ nbits))).setHost (.pass :: s.host)

end Sys2Proof.Machine
end

