-- ==== Sys2Proof/Machine/Text.lean ====
section
/-! DEFINITION. What the host does with text (40_limb_store R112 to R117; 30_encoding R88): the digit-string
conversions, the load and read-out sequences, the assembler spelling. The CORE executes none of it
(00_scope R6). A string is the list of its characters, first character first. -/
namespace Sys2Proof.Machine

/-- A binary digit (40_limb_store R112). -/
def binDigit (c : Char) : Option Nat := if c = '0' then some 0 else if c = '1' then some 1 else none

/-- A hexadecimal digit of either case (40_limb_store R113). -/
def hexDigit (c : Char) : Option Nat :=
  if 48 ≤ c.toNat ∧ c.toNat ≤ 57 then some (c.toNat - 48)
  else if 97 ≤ c.toNat ∧ c.toNat ≤ 102 then some (c.toNat - 87)
  else if 65 ≤ c.toNat ∧ c.toNat ≤ 70 then some (c.toNat - 55)
  else none

/-- The number digits spell, given least significant digit first. -/
def spelled (base : Nat) (ds : List Nat) : Nat :=
  match ds with
  | [] => 0
  | d :: ds => d + base * spelled base ds

/-- The chunks of `per` digits from the least significant end, at most `n` of them. -/
def digitChunks (per n : Nat) (ds : List Nat) : List (List Nat) :=
  match n, ds with
  | 0, _ => []
  | _ + 1, [] => []
  | n + 1, d :: ds => (d :: ds).take per :: digitChunks per n ((d :: ds).drop per)

/-- The normalized vector of a digit string, most significant digit first; `none` is the parse failure, for
the empty string too (40_limb_store R112 to R114). -/
def fromDigits (digit : Char → Option Nat) (base per : Nat) (s : List Char) : Option Value :=
  if s.isEmpty then none
  else (s.reverse.mapM digit).map fun ds =>
    norm ((digitChunks per s.length ds).map fun c => BitVec.ofNat 64 (spelled base c))

/-- `from_binary(s)` (40_limb_store R112). -/
def fromBinary (s : List Char) : Option Value := fromDigits binDigit 2 64 s

/-- `from_hex(s)` (40_limb_store R113). -/
def fromHex (s : List Char) : Option Value := fromDigits hexDigit 16 16 s

/-- A digit's character, lower case (40_limb_store R116; 92_eei_decisions D25). -/
def digitChar (d : Nat) : Char := Char.ofNat (if d < 10 then 48 + d else 87 + d)

/-- A limb as `count` digits of `width` bits each, zero-padded, most significant first. -/
def limbDigits (width count : Nat) (w : Word) : List Char :=
  (List.range count).reverse.map fun i => digitChar (w.toNat / 2 ^ (width * i) % 2 ^ width)

/-- `to_binary(L)` (40_limb_store R115). -/
def toBinary (a : Value) : List Char := a.limbs.reverse.flatMap (limbDigits 1 64)

/-- `to_hex(L)` (40_limb_store R116). -/
def toHex (a : Value) : List Char := a.limbs.reverse.flatMap (limbDigits 4 16)

/-- The steps that shift `V[d]` up a limb and or the next one in, the host polling after each command
(40_limb_store R117; 70_reset_and_hazards R277). `m` is given most significant limb first. -/
def loadRest (d : VReg) (m : List Word) : List HostEvent :=
  m.flatMap fun w =>
    [.issue (encode (.shl d d 1)), .poll, .sets 0 w, .issue (encode (.orw d 0)), .poll]

/-- The load sequence of 40_limb_store R117, `m` given most significant limb first and not empty. -/
def loadSequence (d : VReg) (m : List Word) : List HostEvent :=
  match m with
  | [] => []
  | w :: ws => [.sets 0 w, .issue (encode (.wrap d 0)), .poll, .sets 1 64#64] ++ loadRest d ws

/-- The first line of the read-out of 40_limb_store R117: `VLEN S0, Va ; .gets S0`, whose answer is the limb count. -/
def readOutLength (a : VReg) : List HostEvent := [.issue (encode (.vlen 0 a)), .poll, .gets 0]

/-- The loop of the read-out of 40_limb_store R117, for the limb count `n`: limb n-1 first. -/
def readOutLimbs (a : VReg) (n : Nat) : List HostEvent :=
  (List.range n).reverse.flatMap fun i =>
    [.sets 1 (BitVec.ofNat 64 i), .issue (encode (.vgetl 2 a 1)), .poll, .gets 2]

/-- The whole read-out of 40_limb_store R117 of a register whose limb count `.gets S0` answers as `n`. -/
def readOutSequence (a : VReg) (n : Nat) : List HostEvent := readOutLength a ++ readOutLimbs a n

/-- The host between the two parts of the read-out: it has the word `n` that `.gets S0` answered and goes on with the
loop for it (40_limb_store R117). -/
def continueReadOut (a : VReg) (s : State) : State :=
  match s.reply with
  | none => s
  | some n => s.setHost (readOutLimbs a n.toNat)

/-- The mnemonic of a command (30_encoding R84). -/
def mnemonic (i : Instr) : String :=
  match i with
  | .wrap _ _ => "WRAP"
  | .random _ _ => "RANDOM"
  | .mov _ _ => "MOV"
  | .vchk _ => "VCHK"
  | .vlen _ _ => "VLEN"
  | .vgetl _ _ _ => "VGETL"
  | .add _ _ _ => "ADD"
  | .sub _ _ _ => "SUB"
  | .mul _ _ _ => "MUL"
  | .shl _ _ _ => "SHL"
  | .shr _ _ => "SHR"
  | .rem _ _ _ => "REM"
  | .cmp _ _ _ => "CMP"
  | .cmpw _ _ _ => "CMPW"
  | .bitlen _ _ => "BITLEN"
  | .tzcnt _ _ => "TZCNT"
  | .parity _ _ => "PARITY"
  | .dec _ => "DEC"
  | .orw _ _ => "ORW"
  | .modpow _ _ _ _ => "MODPOW"
  | .modpoww _ _ _ _ => "MODPOWW"
  | .mrtest _ _ _ => "MRTEST"
  | .genprime _ _ => "GENPRIME"

/-- The name of a value register (30_encoding R88). -/
def vName (r : VReg) : String := "V" ++ Nat.repr r.val

/-- The name of a scalar register (30_encoding R88). -/
def sName (r : SReg) : String := "S" ++ Nat.repr r.val

/-- The operand spellings of a command, in the order `rd, ra, rb, rc` (30_encoding R88). -/
def operandNames (i : Instr) : List String :=
  match i with
  | .wrap rd ra | .random rd ra | .genprime rd ra => [vName rd, sName ra]
  | .mov rd ra => [vName rd, vName ra]
  | .vchk ra => [vName ra]
  | .vlen rd ra | .bitlen rd ra | .tzcnt rd ra | .parity rd ra => [sName rd, vName ra]
  | .vgetl rd ra rb | .cmpw rd ra rb | .mrtest rd ra rb => [sName rd, vName ra, sName rb]
  | .add rd ra rb | .sub rd ra rb | .mul rd ra rb | .rem rd ra rb => [vName rd, vName ra, vName rb]
  | .shl rd ra rb => [vName rd, vName ra, sName rb]
  | .shr rd rb | .orw rd rb => [vName rd, sName rb]
  | .cmp rd ra rb => [sName rd, vName ra, vName rb]
  | .dec rd => [vName rd]
  | .modpow rd ra rb rc => [vName rd, vName ra, vName rb, vName rc]
  | .modpoww rd ra rb rc => [vName rd, vName ra, sName rb, vName rc]

/-- The assembler spelling of a command (30_encoding R88). -/
def assembly (i : Instr) : String := mnemonic i ++ " " ++ ", ".intercalate (operandNames i)

end Sys2Proof.Machine
end

