-- ==== Sys2Proof/Safety.lean ====
section
/-! DEFINITION. What counts as a safe run, and the terms the statements use: the invariant of reachable states, the
fault the spec names for a command in a state, the registers a command may write, and Miller-Rabin on numbers. -/
namespace Sys2Proof.Machine

/-- The parameters are ones the spec allows (00_scope R8; 20_memory R56; 92_eei_decisions D3, D22): LMAX positive or
unbounded, the table ascending, exactly the primes up to its bound. -/
structure ParamsWf (p : Params) : Prop where
  lmaxPos : ∀ l, p.lmax = some l → 0 < l
  ascending : p.spt.Pairwise fun a b => a < b
  primes : ∀ w ∈ p.spt, w.toNat.Prime ∧ w.toNat ≤ p.sptBound
  complete : ∀ q, q.Prime → q ≤ p.sptBound → ∃ w ∈ p.spt, w.toNat = q

/-- The invariant of every reachable state: the parameters are legal; every value register is normalized and within
capacity (10_state R21, R23); a code is recorded exactly in FAULT, and no word without one (10_state R31); between
two steps BUSY with a bit count means GENPRIME, its count that of its register and within capacity
(46_prime_generator R221, R223). -/
structure State.Inv (s : State) : Prop where
  params : ParamsWf s.params
  valid : ∀ r, (s.readV r).valid = true
  within : ∀ r, s.overLimbs (s.readV r).len = false
  code : s.mode = .fault ↔ s.faultCode.isSome = true
  noWord : s.faultCode = none → s.faultCw = 0
  generating : ∀ b, s.mode = .busy (some b) →
    ∃ rd ra, decode s.cw = .ok (.genprime rd ra) ∧ s.readS ra = b ∧ s.overBits b.toNat = false

/-- A run is safe while it is not in the machine state FAULT, "never a correct end state" (60_exceptions R246;
93_implementation_defined U20). -/
def State.safe (s : State) : Bool := s.mode != .fault

/-- A number a value register can hold: below `2^(64*LMAX)` (10_state R22, R23). -/
def State.holds (s : State) (n : Nat) : Bool :=
  match s.params.lmax with
  | none => true
  | some l => decide (n < 2 ^ (64 * l))

/-- LMAX is unbounded or positive, as 00_scope R8 says. -/
def State.lmaxLegal (s : State) : Bool := s.params.lmax != some 0

/-- The source value registers of a command, in the order they are examined (60_exceptions R243). -/
def valueSources (i : Instr) : List VReg :=
  match i with
  | .wrap _ _ | .random _ _ | .genprime _ _ => []
  | .mov _ ra | .vchk ra | .vlen _ ra | .vgetl _ ra _ | .shl _ ra _ | .cmpw _ ra _ | .bitlen _ ra
  | .tzcnt _ ra | .parity _ ra | .mrtest _ ra _ => [ra]
  | .add _ ra rb | .sub _ ra rb | .mul _ ra rb | .rem _ ra rb | .cmp _ ra rb => [ra, rb]
  | .shr rd _ | .dec rd | .orw rd _ => [rd]
  | .modpow _ ra rb rc => [ra, rb, rc]
  | .modpoww _ ra _ rc => [ra, rc]

/-- The fault of a command whose sources are normalized, on the numbers it reads (60_exceptions R242): its own
precondition, or the capacity check on its result. A GENPRIME that has begun raises none. -/
def ownFault (i : Instr) (s : State) : Option FaultCode :=
  match i with
  | .sub _ ra rb => if (s.readV ra).val < (s.readV rb).val then some .subUnderflow else none
  | .rem _ _ rb => if (s.readV rb).val = 0 then some .divZero else none
  | .modpow _ _ _ rc | .modpoww _ _ _ rc => if (s.readV rc).val = 0 then some .divZero else none
  | .dec rd => if (s.readV rd).val = 0 then some .decZero else none
  | .vgetl _ ra rb => if (s.readV ra).len ≤ (s.readS rb).toNat then some .badIndex else none
  | .add _ ra rb => if s.holds ((s.readV ra).val + (s.readV rb).val) then none else some .capacity
  | .mul _ ra rb => if s.holds ((s.readV ra).val * (s.readV rb).val) then none else some .capacity
  | .shl _ ra rb => if s.holds ((s.readV ra).val * 2 ^ (s.readS rb).toNat) then none else some .capacity
  | .random _ ra => if s.overBits (s.readS ra).toNat then some .capacity else none
  | .genprime _ ra =>
    match s.mode with
    | .busy (some _) => none
    | .busy none | .idle | .fault => if s.overBits (s.readS ra).toNat then some .capacity else none
  | .wrap _ _ | .mov _ _ | .vchk _ | .vlen _ _ | .shr _ _ | .cmp _ _ _ | .cmpw _ _ _ | .bitlen _ _
  | .tzcnt _ _ | .parity _ _ | .orw _ _ | .mrtest _ _ _ => none

/-- The fault a command raises in a state, by the order of 60_exceptions R243 (`ILLEGAL_CMD` comes at decode). -/
def specFault (i : Instr) (s : State) : Option FaultCode :=
  if (valueSources i).any fun r => !(s.readV r).valid then some .invariant else ownFault i s

/-- The value register a command writes (30_encoding R84, 10_state R27). -/
def valueDest (i : Instr) : Option VReg :=
  match i with
  | .wrap rd _ | .random rd _ | .mov rd _ | .add rd _ _ | .sub rd _ _ | .mul rd _ _ | .shl rd _ _ | .shr rd _
  | .rem rd _ _ | .dec rd | .orw rd _ | .modpow rd _ _ _ | .modpoww rd _ _ _ | .genprime rd _ => some rd
  | .vchk _ | .vlen _ _ | .vgetl _ _ _ | .cmp _ _ _ | .cmpw _ _ _ | .bitlen _ _ | .tzcnt _ _ | .parity _ _
  | .mrtest _ _ _ => none

/-- The scalar register a command writes (30_encoding R84). -/
def scalarDest (i : Instr) : Option SReg :=
  match i with
  | .vlen rd _ | .vgetl rd _ _ | .cmp rd _ _ | .cmpw rd _ _ | .bitlen rd _ | .tzcnt rd _ | .parity rd _
  | .mrtest rd _ _ => some rd
  | .wrap _ _ | .random _ _ | .mov _ _ | .vchk _ | .add _ _ _ | .sub _ _ _ | .mul _ _ _ | .shl _ _ _ | .shr _ _
  | .rem _ _ _ | .dec _ | .orw _ _ | .modpow _ _ _ _ | .modpoww _ _ _ _ | .genprime _ _ => none

/-- The commands that draw (20_memory R58). -/
def drawing (i : Instr) : Bool :=
  match i with
  | .random _ _ | .mrtest _ _ _ | .genprime _ _ => true
  | .wrap _ _ | .mov _ _ | .vchk _ | .vlen _ _ | .vgetl _ _ _ | .add _ _ _ | .sub _ _ _ | .mul _ _ _ | .shl _ _ _
  | .shr _ _ | .rem _ _ _ | .cmp _ _ _ | .cmpw _ _ _ | .bitlen _ _ | .tzcnt _ _ | .parity _ _ | .dec _ | .orw _ _
  | .modpow _ _ _ _ | .modpoww _ _ _ _ => false

/-- A host event that resets the CORE (70_reset_and_hazards R270). -/
def HostEvent.resets (e : HostEvent) : Bool :=
  match e with
  | .powerOn => true
  | .write off width v => off == 0x18 && width == 64 && v.getLsbD 0
  | .read _ _ | .pass | .poll => false

/-- A host event that accesses the window (20_memory R51). The others leave the step to the CORE, but for power-on. -/
def HostEvent.accesses (e : HostEvent) : Bool :=
  match e with
  | .read _ _ | .write _ _ _ => true
  | .powerOn | .pass | .poll => false

/-- A Miller-Rabin round on numbers: `n - 1 = d * 2^s` with odd `d`, and `a^d` is 1 modulo n or one of the `s` values
`a^(d*2^j)`, j below s, is n-1 (45_miller_rabin R200, R201). -/
def StrongRound (n a : Nat) : Prop :=
  ∃ d s, n - 1 = d * 2 ^ s ∧ d % 2 = 1 ∧ (a ^ d % n = 1 ∨ ∃ j < s, a ^ (d * 2 ^ j) % n = n - 1)

/-- The random-bit source after `j` requests for `k` bits. -/
def rbsAfter (k j : Nat) (r : Rbs) : Rbs :=
  match j with
  | 0 => r
  | j + 1 => rbsAfter k j (randValue k r).2

/-- The number the request for `k` bits number `j`, counted from 0, answers: the witness of round `j + 1`
(45_miller_rabin R203). -/
def witnessAt (k j : Nat) (r : Rbs) : Nat := (randValue k (rbsAfter k j r)).1.val

end Sys2Proof.Machine
end

