-- ==== Sys2Proof/Certificates/Slice0/Obligations.lean ====
section
/-! DEFINITION. The statements for the provers. An equation of a whole next state also says that the sequencer's command
word stays once no command runs: no rule of the spec says so, it is the model's choice (DESIGN CHOICE, log entry 3). -/
open Sys2Proof Sys2Proof.Machine

/-! Encoding (30_encoding) -/

/-- The worked encodings of 30_encoding R84 and words of 95_test_vectors P2 and P3. -/
def Obligations.SampleWordsDecode : Prop :=
  decode 0x10123000#32 = .ok (.add 1 2 3) ∧
  decode 0x20012300#32 = .ok (.modpow 0 1 2 3) ∧
  decode 0x14502000#32 = .ok (.shr 5 2) ∧
  decode 0x02210000#32 = .ok (.random 2 1) ∧
  decode 0x16341000#32 = .ok (.cmp 3 4 1) ∧
  decode 0x30504000#32 = .ok (.mrtest 5 0 4) ∧
  decode 0x40000000#32 = .ok (.genprime 0 0)

/-- No bit of an encoding is dropped: every command at every register number (30_encoding R81, R84). -/
def Obligations.DecodeOfEncode : Prop := ∀ i : Instr, decode (encode i) = .ok i

/-- A legal word is the encoding of the command it decodes to: its fields are read from where 30_encoding R84
says, and no two words mean the same command. -/
def Obligations.EncodeOfDecode : Prop := ∀ (cw : CmdWord) (i : Instr), decode cw = .ok i → encode i = cw

/-- "A word `cw` encodes the command of a row exactly when `cw AND mask = match`" (30_encoding R84). -/
def Obligations.DecodeFollowsTheTable : Prop :=
  (∀ (cw : CmdWord) (i : Instr), decode cw = .ok i →
    ∃ r ∈ commandTable, r.selects cw = true ∧ r.mnemonic = mnemonic i) ∧
  (∀ (cw : CmdWord) (r : Row), r ∈ commandTable → r.selects cw = true →
    ∃ i, decode cw = .ok i ∧ mnemonic i = r.mnemonic)

/-- 30_encoding R86: rows are disjoint; a word is illegal exactly when no row matches it, that is when its opcode is
none of the table's, its `z` byte or an unused field is not zero, or a used field is 8 or more; the all-zero and
all-ones words are illegal; a word written to CMD in IDLE is taken, and then its command runs, or `ILLEGAL_CMD` is
raised with no register changed. -/
def Obligations.IllegalWordsFault : Prop :=
  (∀ (cw : CmdWord) (r₁ r₂ : Row), r₁ ∈ commandTable → r₂ ∈ commandTable →
    r₁.selects cw = true → r₂.selects cw = true → r₁ = r₂) ∧
  (∀ cw : CmdWord, (∃ why, decode cw = .error why) ↔ ∀ r ∈ commandTable, r.selects cw = false) ∧
  (∀ cw : CmdWord, (∃ why, decode cw = .error why) ↔
    ((∀ r ∈ commandTable, r.pattern.extractLsb' 24 8 ≠ cw.extractLsb' 24 8) ∨ cw.extractLsb' 0 8 ≠ 0#8 ∨
      ∃ m, formatOf (cw.extractLsb' 24 8) = some m ∧
        (m.unusedOk (Fields.ofWord cw) = false ∨ m.registersOk (Fields.ofWord cw) = false))) ∧
  (∃ why, decode 0x00000000#32 = .error why) ∧ (∃ why, decode 0xFFFFFFFF#32 = .error why) ∧
  (∀ (s : State) (v : Word) (es : List HostEvent), s.mode = .idle → s.host = .write 0x00 32 v :: es →
    ∃ t, step s = .next t ∧ t.cw = v.setWidth 32 ∧ t.mode = .busy none ∧ t.host = es ∧ t.v = s.v ∧ t.s = s.s) ∧
  (∀ (s : State) (bits : Option Word) (i : Instr), s.mode = .busy bits → s.host = [] → decode s.cw = .ok i →
    step s = exec i s) ∧
  (∀ (s : State) (bits : Option Word) (why : Illegal), s.mode = .busy bits → s.host = [] →
    decode s.cw = .error why → ∃ t, step s = .next t ∧ t.mode = .fault ∧ t.faultCode = some .illegalCmd ∧
      t.faultCw = s.cw ∧ t.v = s.v ∧ t.s = s.s)

/-! Steps (10_state R28 to R38; 20_memory; 60_exceptions; 70_reset_and_hazards) -/

/-- In its turn the CORE runs the command its word decodes to: with no host event left, with a host that passes, with
a polling host; and `withFetchWord` makes the next step that turn (10_state R38; log entries 5, 7). -/
def Obligations.StepRunsTheDecodedCommand : Prop :=
  (∀ (s : State) (bits : Option Word) (i : Instr), s.mode = .busy bits → decode s.cw = .ok i →
    (s.host = [] → step s = exec i s) ∧
    (∀ es, s.host = .pass :: es → step s = exec i (s.setHost es)) ∧
    (∀ es, s.host = .poll :: es → step s = exec i (s.answer 1#64))) ∧
  (∀ (s : State) (w : Nat) (i : Instr), decode (BitVec.ofNat 32 w) = .ok i →
    step (s.withFetchWord 32 w) = exec i (s.start (BitVec.ofNat 32 w)))

/-- IDLE and FAULT keep all state (60_exceptions R246, R254), and a poll ends there with STATUS as its answer
(70_reset_and_hazards R277; the event list is the model's, log entry 5). -/
def Obligations.CoreRestsUnlessBusy : Prop :=
  ∀ s : State, (∀ bits, s.mode ≠ .busy bits) →
    (s.host = [] → step s = .next s) ∧
    (∀ es, s.host = .pass :: es → step s = .next (s.setHost es)) ∧
    (∀ es, s.host = .poll :: es → step s = .next ((s.setHost es).answer (if s.mode = .fault then 2#64 else 0#64)))

/-- 10_state R33. -/
def Obligations.CommandRegisterAccess : Prop :=
  ∀ (s : State) (es : List HostEvent),
    (∀ v, s.host = .write 0x00 32 v :: es → s.mode = .idle →
      step s = .next ((s.setHost es).start (v.setWidth 32))) ∧
    (∀ v, s.host = .write 0x00 32 v :: es → s.mode ≠ .idle → step s = .next (s.setHost es)) ∧
    (s.host = .read 0x00 32 :: es → step s = .next ((s.setHost es).answer 0#64))

/-- 10_state R32. -/
def Obligations.ControlRegisterAccess : Prop :=
  ∀ (s : State) (es : List HostEvent),
    (∀ v, s.host = .write 0x18 64 v :: es → v.getLsbD 0 = true → step s = .next (s.setHost es).resetCore) ∧
    (∀ v, s.host = .write 0x18 64 v :: es → v.getLsbD 0 = false → step s = .next (s.setHost es)) ∧
    (s.host = .read 0x18 64 :: es → step s = .next ((s.setHost es).answer 0#64))

/-- The table of 10_state R37 after either reset source of 70_reset_and_hazards R270, in any machine state, and in
the state the model starts from. What the table leaves unspecified is not stated. -/
def Obligations.ResetReachesTheResetTable : Prop :=
  (∀ (s : State) (es : List HostEvent),
    (s.host = .powerOn :: es ∨ ∃ v : Word, v.getLsbD 0 = true ∧ s.host = .write 0x18 64 v :: es) →
    ∃ t, step s = .next t ∧ (∀ r, t.readV r = ⟨0#64, []⟩) ∧ (∀ r, t.readS r = 0#64) ∧ t.mode = .idle ∧
      t.statusWord = 0#64 ∧ t.faultInfoWord = 0#64 ∧ t.params = s.params ∧ t.rbs = s.rbs) ∧
  (∀ p : Params, (∀ r, (State.resetWith p).readV r = ⟨0#64, []⟩) ∧ (∀ r, (State.resetWith p).readS r = 0#64) ∧
    (State.resetWith p).mode = .idle ∧ (State.resetWith p).statusWord = 0#64 ∧
    (State.resetWith p).faultInfoWord = 0#64 ∧ (State.resetWith p).params = p)

/-- 10_state R29: BUSY in bit 0, FAULT in bit 1, never both, the rest zero; a write is discarded. -/
def Obligations.StatusReadsTheMachineState : Prop :=
  ∀ (s : State) (es : List HostEvent),
    (s.host = .read 0x08 64 :: es → ∃ w : Word, step s = .next ((s.setHost es).answer w) ∧
      (w.getLsbD 0 = true ↔ ∃ bits, s.mode = .busy bits) ∧ (w.getLsbD 1 = true ↔ s.mode = .fault) ∧
      ¬(w.getLsbD 0 = true ∧ w.getLsbD 1 = true) ∧ ∀ j, 2 ≤ j → w.getLsbD j = false) ∧
    (∀ v, s.host = .write 0x08 64 v :: es → step s = .next (s.setHost es))

/-- 10_state R31: the layout of FAULTINFO, 0 outside FAULT in every state meeting the invariant; a write is
discarded; the code numbers of 60_exceptions R241. -/
def Obligations.FaultInfoReadsCodeAndWord : Prop :=
  ∀ (s : State) (es : List HostEvent),
    (s.host = .read 0x10 64 :: es → (∀ bits, s.mode ≠ .busy bits) →
      ∃ w : Word, step s = .next ((s.setHost es).answer w) ∧ w.extractLsb' 8 32 = s.faultCw ∧
        w.extractLsb' 40 24 = 0#24 ∧ (s.faultCode = none → w.extractLsb' 0 8 = 0#8) ∧
        (∀ c, s.faultCode = some c → w.extractLsb' 0 8 = c.number) ∧ (s.Inv → s.mode ≠ .fault → w = 0#64)) ∧
    (∀ v, s.host = .write 0x10 64 v :: es → step s = .next (s.setHost es)) ∧
    [FaultCode.illegalCmd, .invariant, .subUnderflow, .divZero, .decZero, .badIndex, .capacity].map FaultCode.number =
      [1#8, 2#8, 3#8, 4#8, 5#8, 6#8, 7#8]

/-- 20_memory R61, clause by clause: IDLE, FAULT, BUSY. While BUSY the word read is any word: the statement holds for
whatever the free value is (the model's counter of such reads, log entry 6, is left open). -/
def Obligations.HostAccessByMachineState : Prop :=
  ∀ (s : State) (es : List HostEvent) (i : SReg),
    ((∀ bits, s.mode ≠ .busy bits) →
      (s.host = .read (0x40 + 8 * i.val) 64 :: es → step s = .next ((s.setHost es).answer (s.readS i))) ∧
      (s.host = .read 0x08 64 :: es → step s = .next ((s.setHost es).answer s.statusWord)) ∧
      (s.host = .read 0x10 64 :: es → step s = .next ((s.setHost es).answer s.faultInfoWord))) ∧
    (s.mode = .idle → ∀ w, s.host = .write (0x40 + 8 * i.val) 64 w :: es →
      step s = .next ((s.setHost es).writeS i w)) ∧
    (∀ bits, s.mode = .busy bits →
      (s.host = .read 0x08 64 :: es → step s = .next ((s.setHost es).answer 1#64)) ∧
      (s.host = .read (0x40 + 8 * i.val) 64 :: es ∨ s.host = .read 0x10 64 :: es →
        ∃ w n, step s = .next { s with host := es, reply := some w, free := n }) ∧
      (∀ w, s.host = .write (0x40 + 8 * i.val) 64 w :: es ∨ s.host = .write 0x00 32 w :: es →
        step s = .next (s.setHost es)) ∧
      (∀ w, s.host = .write 0x18 64 w :: es → w.getLsbD 0 = true → step s = .next (s.setHost es).resetCore)) ∧
    (s.mode = .fault → ∀ w, s.host = .write (0x40 + 8 * i.val) 64 w :: es ∨ s.host = .write 0x00 32 w :: es →
      step s = .next (s.setHost es))

/-- 20_memory R51, R52: the accesses that are rows of the window go on, the reserved ones reading 0 and writing
nothing; every other is refused. That the reserved range is the 64-bit registers at 0x20, 0x28, 0x30 and 0x38 is the
model's reading (DEDUCED, log entry 8). -/
def Obligations.OnlyWindowRowsHaveMeaning : Prop :=
  ∀ (s : State) (es : List HostEvent) (off width : Nat),
    let reserved := 0x20 ≤ off ∧ off < 0x40 ∧ width = 64 ∧ off % 8 = 0
    let row := (off = 0x00 ∧ width = 32) ∨ (off = 0x08 ∧ width = 64) ∨ (off = 0x10 ∧ width = 64) ∨
      (off = 0x18 ∧ width = 64) ∨ reserved ∨ (∃ i : SReg, off = 0x40 + 8 * i.val ∧ width = 64)
    (s.host = .read off width :: es →
      (¬row → step s = .refused .notAWindowRow) ∧ (row → ∃ t, step s = .next t ∧ t.v = s.v ∧ t.s = s.s) ∧
      (reserved → step s = .next ((s.setHost es).answer 0#64))) ∧
    (∀ v, s.host = .write off width v :: es →
      (¬row → step s = .refused .notAWindowRow) ∧ (row → ∃ t, step s = .next t) ∧
      (reserved → step s = .next (s.setHost es)))

/-- 60_exceptions R246: in FAULT nothing but reset changes a register, the machine state or FAULTINFO; reset clears
every register. -/
def Obligations.FaultIsFinalUntilReset : Prop :=
  ∀ s t : State, s.mode = .fault → step s = .next t →
    ((∀ e ∈ s.host.head?, e.resets = false) →
      t.mode = .fault ∧ t.faultCode = s.faultCode ∧ t.faultCw = s.faultCw ∧ t.v = s.v ∧ t.s = s.s) ∧
    ((∃ e ∈ s.host.head?, e.resets = true) →
      t.mode = .idle ∧ t.faultCode = none ∧ t.faultCw = 0 ∧ (∀ r, t.readV r = Value.zero) ∧ ∀ r, t.readS r = 0#64)

/-- 60_exceptions R242 to R245: in every state, legal LMAX given, a command raises exactly the fault the spec names,
by its order of checks, and none where it names none; fault entry writes CODE, CW and the machine state and nothing
else, so that no value or scalar register changes; an illegal word raises `ILLEGAL_CMD` before anything is read. -/
def Obligations.FaultsAreExactlyTheSpecs : Prop :=
  (∀ (i : Instr) (s : State), s.lmaxLegal = true →
    (∀ c, specFault i s = some c →
      exec i s = .next { s with faultCode := some c, faultCw := s.cw, mode := .fault }) ∧
    (specFault i s = none → ∀ t, exec i s = .next t → t.mode ≠ .fault)) ∧
  (∀ (s : State) (bits : Option Word) (why : Illegal), s.mode = .busy bits → s.host = [] →
    decode s.cw = .error why →
    step s = .next { s with faultCode := some .illegalCmd, faultCw := s.cw, mode := .fault })

/-- The frame of every command that does not fault: only its destination register and the machine state change, the
random-bit source only where the command draws (10_state R20, R25, R27, R30, R36; 20_memory R58). That the sequencer's
command word also stays after the command has ended is the model's choice (DESIGN CHOICE, log entry 3). -/
def Obligations.CommandsChangeOnlyTheirDestination : Prop :=
  ∀ (i : Instr) (s t : State), exec i s = .next t → t.mode ≠ .fault →
    (∀ r, valueDest i ≠ some r → t.readV r = s.readV r) ∧ (∀ r, scalarDest i ≠ some r → t.readS r = s.readS r) ∧
    (drawing i = false → t.rbs = s.rbs) ∧ t.params = s.params ∧ t.cw = s.cw ∧ t.faultCode = s.faultCode ∧
    t.faultCw = s.faultCw ∧ t.free = s.free ∧ t.host = s.host ∧ t.reply = s.reply

/-- 10_state R38 over every step. IDLE leaves only by a CMD write. BUSY leaves only by a reset or in the CORE's turn: a
read or write that does not reset leaves BUSY, the command word and the registers as they were; the CORE's turn ends the
command, faults, or is a GENPRIME that goes on. FAULT leaves only by reset. A step into FAULT changes no register. V
registers change only while BUSY or by reset, since the host has no access to them (20_memory R50). -/
def Obligations.MachineStateTransitions : Prop :=
  ∀ s t : State, step s = .next t →
    (s.mode = .idle → t.mode = .idle ∨
      (t.mode = .busy none ∧ ∃ v es, s.host = .write 0x00 32 v :: es ∧ t.cw = v.setWidth 32)) ∧
    (∀ b, s.mode = .busy b →
      ((∃ e ∈ s.host.head?, e.resets = true) → t.mode = .idle) ∧
      ((∃ e ∈ s.host.head?, e.resets = false ∧ e.accesses = true) →
        t.mode = .busy b ∧ t.cw = s.cw ∧ t.v = s.v ∧ t.s = s.s) ∧
      ((∀ e ∈ s.host.head?, e.resets = false ∧ e.accesses = false) → t.mode = .idle ∨ t.mode = .fault ∨
        (t.cw = s.cw ∧ ∃ c rd ra, t.mode = .busy (some c) ∧ decode s.cw = .ok (.genprime rd ra)))) ∧
    (s.mode = .fault → t.mode = .fault ∨ (t.mode = .idle ∧ ∃ e ∈ s.host.head?, e.resets = true)) ∧
    (s.mode ≠ .fault → t.mode = .fault → t.v = s.v ∧ t.s = s.s ∧ t.faultCw = s.cw ∧ t.faultCode.isSome = true ∧
      (∃ b, s.mode = .busy b) ∧ ∀ e ∈ s.host.head?, e.resets = false ∧ e.accesses = false) ∧
    (t.v ≠ s.v → (∃ b, s.mode = .busy b) ∨ ∃ e ∈ s.host.head?, e.resets = true)

/-- The invariant holds after reset, for legal parameters and for the model's own State.reset. -/
def Obligations.ResetMeetsTheInvariant : Prop :=
  (∀ p : Params, ParamsWf p → (State.resetWith p).Inv) ∧ State.reset.Inv

/-- Every step, of the CORE or of the host, keeps the invariant: value registers normalized and within LMAX, FAULTINFO
set exactly in FAULT, BUSY between steps a GENPRIME (10_state R21, R23, R31; 60_exceptions R253). -/
def Obligations.StepKeepsTheInvariant : Prop := ∀ s t : State, s.Inv → step s = .next t → t.Inv

/-- 60_exceptions R253: from a state meeting the invariant no step raises `INVARIANT`. -/
def Obligations.InvariantFaultIsUnreachable : Prop :=
  ∀ s t : State, s.Inv → s.faultCode ≠ some .invariant → step s = .next t → t.faultCode ≠ some .invariant

/-- 10_state R36, 20_memory R56: no step writes the configuration. -/
def Obligations.ParametersNeverChange : Prop := ∀ s t : State, step s = .next t → t.params = s.params

/-! Limbs (00_scope R11, 10_state R22, 41_add_sub_mul R130 to R132) -/

/-- 41_add_sub_mul R130. -/
def Obligations.LimbAdderIsExact : Prop :=
  ∀ (a b : Word) (cin : Bool),
    (adc64 a b cin).1.toNat + 2 ^ 64 * (adc64 a b cin).2.toNat = a.toNat + b.toNat + cin.toNat ∧
    ((adc64 a b cin).2 = true ↔ 2 ^ 64 ≤ a.toNat + b.toNat + cin.toNat)

/-- 41_add_sub_mul R131. -/
def Obligations.LimbSubtractorIsExact : Prop :=
  ∀ (a b : Word) (bin : Bool),
    ((sbb64 a b bin).1.toNat : Int) - 2 ^ 64 * ((sbb64 a b bin).2.toNat : Int) =
      (a.toNat : Int) - b.toNat - bin.toNat ∧
    ((sbb64 a b bin).1.toNat : Int) = ((a.toNat : Int) - b.toNat - bin.toNat) % 2 ^ 64

/-- 41_add_sub_mul R132. -/
def Obligations.LimbMultiplierIsExact : Prop :=
  (∀ a b : Word, (mul64 a b).1.toNat + 2 ^ 64 * (mul64 a b).2.toNat = a.toNat * b.toNat) ∧
  (∀ o a b c : Word,
    (mac64 o a b c).1.toNat + 2 ^ 64 * (mac64 o a b c).2.toNat = o.toNat + a.toNat * b.toNat + c.toNat) ∧
  mul64 ones ones = (1#64, 0xFFFFFFFFFFFFFFFE#64)

/-- 43_rem_cmp_bits R171: the zero bits above the highest and below the lowest set bit; 64 for the zero word. -/
def Obligations.WordBitCounts : Prop :=
  clz64 0#64 = 64 ∧ ctz64 0#64 = 64 ∧
  ∀ x : Word, x ≠ 0#64 → clz64 x = 63 - Nat.log2 x.toNat ∧ (∀ j, 64 - clz64 x ≤ j → x.getLsbD j = false) ∧
    2 ^ ctz64 x ∣ x.toNat ∧ ¬2 ^ (ctz64 x + 1) ∣ x.toNat

/-- 10_state R22: a normalized vector is determined by its number, `limbs(n)` is that vector, its length and limbs are
the formulas of the rule, and it has at most `l` limbs exactly when the number is below `2^(64*l)`. -/
def Obligations.LimbVectorsAreNumbers : Prop :=
  (∀ a b : Value, a.valid = true → b.valid = true → (a.val = b.val ↔ a = b)) ∧
  (∀ n : Nat, (limbsOf n).valid = true ∧ (limbsOf n).val = n) ∧
  (∀ a : Value, a.valid = true → a = limbsOf a.val ∧
    a.len = (if a.val = 0 then 1 else Nat.log2 a.val / 64 + 1) ∧
    (∀ l, 0 < l → (a.len ≤ l ↔ a.val < 2 ^ (64 * l))) ∧
    ∀ j, j < a.len → (a.limbs.getD j 0#64).toNat = a.val / 2 ^ (64 * j) % 2 ^ 64)

/-- Sizes of intermediates (10_state R34, 41_add_sub_mul R133, R135, 43_rem_cmp_bits R164): a sum is at most one limb
longer than the longer operand, a product at most as long as both together, REM's shifted divisor no longer than the
dividend. -/
def Obligations.IntermediatesStayBounded : Prop :=
  (∀ a b : Value, a.valid = true → b.valid = true →
    (addV a b).len ≤ max a.len b.len + 1 ∧ (mulV a b).len ≤ a.len + b.len) ∧
  (∀ (a m : Value) (sh : Nat), a.valid = true → m.valid = true → m.val ≠ 0 → m.val ≤ a.val →
    sh ≤ bitLen a - bitLen m → (shlV m sh).len ≤ a.len)

/-! Limb Store commands (40_limb_store) -/

/-- 40_limb_store R100. -/
def Obligations.WrapResult : Prop :=
  ∀ (s : State) (rd : VReg) (ra : SReg),
    exec (.wrap rd ra) s = .next (s.writeV rd ⟨s.readS ra, []⟩).complete ∧
    (Value.mk (s.readS ra) []).val = (s.readS ra).toNat

/-- 40_limb_store R101, R102; 20_memory R59: for `k` bits the result has bit k-1 set, higher bits clear, lower bits
those of the drawn words, word j in limb j, `ceil(k/64)` words drawn; `k = 0` gives zero without a draw; above
`64*LMAX`, `CAPACITY` before any draw. Holds for whatever words the source gives. -/
def Obligations.RandomResult : Prop :=
  ∀ (s : State) (rd : VReg) (ra : SReg),
    let k := (s.readS ra).toNat
    let words := (Rbs.drawMany ((k + 63) / 64) s.rbs).1
    (s.overBits k = true → exec (.random rd ra) s = .next (s.raise .capacity)) ∧
    (s.overBits k = false →
      ∃ (x : Value) (r : Rbs), exec (.random rd ra) s = .next ((s.setRbs r).writeV rd x).complete ∧
        x.valid = true ∧ r.drawn = s.rbs.drawn + (k + 63) / 64 ∧ (k = 0 → x.val = 0 ∧ r = s.rbs) ∧
        (0 < k → 2 ^ (k - 1) ≤ x.val ∧ x.val < 2 ^ k ∧ r = (Rbs.drawMany ((k + 63) / 64) s.rbs).2 ∧
          ∀ j, j < k - 1 → x.val.testBit j = (words.getD (j / 64) 0#64).getLsbD (j % 64)))

/-- 40_limb_store R103, R104: MOV copies, VCHK has no effect, on a valid source; on an invalid one both raise
`INVARIANT` (R108). -/
def Obligations.MovAndVchkResult : Prop :=
  ∀ (s : State) (rd ra : VReg),
    ((s.readV ra).valid = true →
      exec (.mov rd ra) s = .next (s.writeV rd (s.readV ra)).complete ∧ exec (.vchk ra) s = .next s.complete) ∧
    ((s.readV ra).valid = false →
      exec (.mov rd ra) s = .next (s.raise .invariant) ∧ exec (.vchk ra) s = .next (s.raise .invariant))

/-- 40_limb_store R105: the limb count, 1 for zero; refused where it does not fit a word, as the rule says. -/
def Obligations.VlenResult : Prop :=
  ∀ (s : State) (rd : SReg) (ra : VReg),
    let n := if (s.readV ra).val = 0 then 1 else Nat.log2 (s.readV ra).val / 64 + 1
    ((s.readV ra).valid = false → exec (.vlen rd ra) s = .next (s.raise .invariant)) ∧
    ((s.readV ra).valid = true →
      (n < 2 ^ 64 → exec (.vlen rd ra) s = .next (s.writeS rd (BitVec.ofNat 64 n)).complete) ∧
      (2 ^ 64 ≤ n → exec (.vlen rd ra) s = .refused .countTooWide))

/-- 40_limb_store R106: limb i of the value, `BAD_INDEX` at or above the limb count. -/
def Obligations.VgetlResult : Prop :=
  ∀ (s : State) (rd : SReg) (ra : VReg) (rb : SReg),
    let i := (s.readS rb).toNat
    ((s.readV ra).valid = false → exec (.vgetl rd ra rb) s = .next (s.raise .invariant)) ∧
    ((s.readV ra).valid = true →
      (i < (s.readV ra).len → exec (.vgetl rd ra rb) s =
        .next (s.writeS rd (BitVec.ofNat 64 ((s.readV ra).val / 2 ^ (64 * i)))).complete) ∧
      ((s.readV ra).len ≤ i → exec (.vgetl rd ra rb) s = .next (s.raise .badIndex)))

/-! Arithmetic Engine commands (41_add_sub_mul, 42_shift, 43_rem_cmp_bits). Each statement begins with the assertion of
40_limb_store R108: a source that is not normalized raises `INVARIANT`. -/

/-- 41_add_sub_mul R133: the exact sum, `CAPACITY` when it is `2^(64*LMAX)` or more. -/
def Obligations.AddResult : Prop :=
  ∀ (s : State) (rd ra rb : VReg), s.lmaxLegal = true →
    let n := (s.readV ra).val + (s.readV rb).val
    ((s.readV ra).valid = false ∨ (s.readV rb).valid = false → exec (.add rd ra rb) s = .next (s.raise .invariant)) ∧
    ((s.readV ra).valid = true → (s.readV rb).valid = true →
      (s.holds n = true → exec (.add rd ra rb) s = .next (s.writeV rd (limbsOf n)).complete) ∧
      (s.holds n = false → exec (.add rd ra rb) s = .next (s.raise .capacity)))

/-- 41_add_sub_mul R134: the exact difference, `SUB_UNDERFLOW` when the minuend is smaller. -/
def Obligations.SubResult : Prop :=
  ∀ (s : State) (rd ra rb : VReg),
    let a := (s.readV ra).val
    let b := (s.readV rb).val
    ((s.readV ra).valid = false ∨ (s.readV rb).valid = false → exec (.sub rd ra rb) s = .next (s.raise .invariant)) ∧
    ((s.readV ra).valid = true → (s.readV rb).valid = true →
      (b ≤ a → exec (.sub rd ra rb) s = .next (s.writeV rd (limbsOf (a - b))).complete) ∧
      (a < b → exec (.sub rd ra rb) s = .next (s.raise .subUnderflow)))

/-- 41_add_sub_mul R135: the exact product, `CAPACITY` when it is `2^(64*LMAX)` or more. -/
def Obligations.MulResult : Prop :=
  ∀ (s : State) (rd ra rb : VReg), s.lmaxLegal = true →
    let n := (s.readV ra).val * (s.readV rb).val
    ((s.readV ra).valid = false ∨ (s.readV rb).valid = false → exec (.mul rd ra rb) s = .next (s.raise .invariant)) ∧
    ((s.readV ra).valid = true → (s.readV rb).valid = true →
      (s.holds n = true → exec (.mul rd ra rb) s = .next (s.writeV rd (limbsOf n)).complete) ∧
      (s.holds n = false → exec (.mul rd ra rb) s = .next (s.raise .capacity)))

/-- 42_shift R150: `val * 2^k`, `CAPACITY` when the value is not zero and `bitlen + k > 64*LMAX`. -/
def Obligations.ShlResult : Prop :=
  ∀ (s : State) (rd ra : VReg) (rb : SReg),
    let a := (s.readV ra).val
    let k := (s.readS rb).toNat
    let tooLong := a ≠ 0 ∧ s.overBits (Nat.log2 a + 1 + k) = true
    ((s.readV ra).valid = false → exec (.shl rd ra rb) s = .next (s.raise .invariant)) ∧
    ((s.readV ra).valid = true →
      (¬tooLong → exec (.shl rd ra rb) s = .next (s.writeV rd (limbsOf (a * 2 ^ k))).complete) ∧
      (tooLong → exec (.shl rd ra rb) s = .next (s.raise .capacity)))

/-- 42_shift R151: `val div 2^k`, in place. -/
def Obligations.ShrResult : Prop :=
  ∀ (s : State) (rd : VReg) (rb : SReg),
    ((s.readV rd).valid = false → exec (.shr rd rb) s = .next (s.raise .invariant)) ∧
    ((s.readV rd).valid = true →
      exec (.shr rd rb) s = .next (s.writeV rd (limbsOf ((s.readV rd).val / 2 ^ (s.readS rb).toNat))).complete)

/-- 43_rem_cmp_bits R160, R164: the remainder of floor division, below the divisor; `DIV_ZERO` on a zero divisor. -/
def Obligations.RemResult : Prop :=
  ∀ (s : State) (rd ra rb : VReg),
    let a := (s.readV ra).val
    let b := (s.readV rb).val
    ((s.readV ra).valid = false ∨ (s.readV rb).valid = false → exec (.rem rd ra rb) s = .next (s.raise .invariant)) ∧
    ((s.readV ra).valid = true → (s.readV rb).valid = true →
      (b ≠ 0 → a % b < b ∧ exec (.rem rd ra rb) s = .next (s.writeV rd (limbsOf (a % b))).complete) ∧
      (b = 0 → exec (.rem rd ra rb) s = .next (s.raise .divZero)))

/-- 43_rem_cmp_bits R161, R162: 0 equal, 1 greater, 2 less; Compare is the order of the numbers. -/
def Obligations.CmpResult : Prop :=
  ∀ (s : State) (rd : SReg) (ra rb : VReg),
    let a := (s.readV ra).val
    let b := (s.readV rb).val
    ((s.readV ra).valid = false ∨ (s.readV rb).valid = false → exec (.cmp rd ra rb) s = .next (s.raise .invariant)) ∧
    ((s.readV ra).valid = true → (s.readV rb).valid = true →
      exec (.cmp rd ra rb) s = .next (s.writeS rd (if a = b then 0#64 else if b < a then 1#64 else 2#64)).complete ∧
      compareV (s.readV ra) (s.readV rb) = compare a b)

/-- 43_rem_cmp_bits R163: the same against a machine word, and as comparison with the wrapped word. -/
def Obligations.CmpwResult : Prop :=
  ∀ (s : State) (rd : SReg) (ra : VReg) (rb : SReg),
    let a := (s.readV ra).val
    let w := (s.readS rb).toNat
    ((s.readV ra).valid = false → exec (.cmpw rd ra rb) s = .next (s.raise .invariant)) ∧
    ((s.readV ra).valid = true →
      exec (.cmpw rd ra rb) s = .next (s.writeS rd (if a = w then 0#64 else if w < a then 1#64 else 2#64)).complete ∧
      compareWord (s.readV ra) (s.readS rb) = compareV (s.readV ra) ⟨s.readS rb, []⟩)

/-- 43_rem_cmp_bits R170: the bit length, 0 for zero; refused where it does not fit a word. -/
def Obligations.BitlenResult : Prop :=
  ∀ (s : State) (rd : SReg) (ra : VReg),
    let n := if (s.readV ra).val = 0 then 0 else Nat.log2 (s.readV ra).val + 1
    ((s.readV ra).valid = false → exec (.bitlen rd ra) s = .next (s.raise .invariant)) ∧
    ((s.readV ra).valid = true →
      (n < 2 ^ 64 → exec (.bitlen rd ra) s = .next (s.writeS rd (BitVec.ofNat 64 n)).complete) ∧
      (2 ^ 64 ≤ n → exec (.bitlen rd ra) s = .refused .countTooWide))

/-- 43_rem_cmp_bits R172: the largest power of two dividing the value, 64 for zero. That a count of `2^64` or more is
refused is not in R172: it is 92_eei_decisions D24 (93_implementation_defined U18), DEDUCED, log entry 9. -/
def Obligations.TzcntResult : Prop :=
  ∀ (s : State) (rd : SReg) (ra : VReg),
    let a := (s.readV ra).val
    ((s.readV ra).valid = false → exec (.tzcnt rd ra) s = .next (s.raise .invariant)) ∧
    ((s.readV ra).valid = true →
      ∃ n : Nat, (a = 0 → n = 64) ∧ (a ≠ 0 → 2 ^ n ∣ a ∧ ¬2 ^ (n + 1) ∣ a) ∧
        (n < 2 ^ 64 → exec (.tzcnt rd ra) s = .next (s.writeS rd (BitVec.ofNat 64 n)).complete) ∧
        (2 ^ 64 ≤ n → exec (.tzcnt rd ra) s = .refused .countTooWide))

/-- 43_rem_cmp_bits R173. -/
def Obligations.ParityResult : Prop :=
  ∀ (s : State) (rd : SReg) (ra : VReg),
    ((s.readV ra).valid = false → exec (.parity rd ra) s = .next (s.raise .invariant)) ∧
    ((s.readV ra).valid = true →
      exec (.parity rd ra) s = .next (s.writeS rd (BitVec.ofNat 64 ((s.readV ra).val % 2))).complete)

/-- 43_rem_cmp_bits R174: one less, in place, normalized; `DEC_ZERO` on zero. -/
def Obligations.DecResult : Prop :=
  ∀ (s : State) (rd : VReg),
    let a := (s.readV rd).val
    ((s.readV rd).valid = false → exec (.dec rd) s = .next (s.raise .invariant)) ∧
    ((s.readV rd).valid = true →
      (a ≠ 0 → exec (.dec rd) s = .next (s.writeV rd (limbsOf (a - 1))).complete) ∧
      (a = 0 → exec (.dec rd) s = .next (s.raise .decZero)))

/-- 43_rem_cmp_bits R175: `val(A) - A[0] + (A[0] OR w)`, at least `val(A)`, in place, only limb 0 changed. -/
def Obligations.OrwResult : Prop :=
  ∀ (s : State) (rd : VReg) (rb : SReg),
    let a := s.readV rd
    let x := limbsOf (a.val - a.low.toNat + (a.low ||| s.readS rb).toNat)
    ((s.readV rd).valid = false → exec (.orw rd rb) s = .next (s.raise .invariant)) ∧
    ((s.readV rd).valid = true →
      exec (.orw rd rb) s = .next (s.writeV rd x).complete ∧ x.high = a.high ∧ a.val ≤ x.val)

/-! Modular exponentiation (44_modpow) -/

/-- 44_modpow R191, R193: `base^exponent mod modulus`, 1 at exponent 0 whatever the modulus (also modulus 1);
`DIV_ZERO` on a zero modulus, even when the exponent is zero. -/
def Obligations.ModpowResult : Prop :=
  ∀ (s : State) (rd ra rb rc : VReg),
    let n := if (s.readV rb).val = 0 then 1 else (s.readV ra).val ^ (s.readV rb).val % (s.readV rc).val
    ((s.readV ra).valid = false ∨ (s.readV rb).valid = false ∨ (s.readV rc).valid = false →
      exec (.modpow rd ra rb rc) s = .next (s.raise .invariant)) ∧
    ((s.readV ra).valid = true → (s.readV rb).valid = true → (s.readV rc).valid = true →
      ((s.readV rc).val ≠ 0 → exec (.modpow rd ra rb rc) s = .next (s.writeV rd (limbsOf n)).complete) ∧
      ((s.readV rc).val = 0 → exec (.modpow rd ra rb rc) s = .next (s.raise .divZero)))

/-- 44_modpow R192: the same with the exponent a machine word. -/
def Obligations.ModpowwResult : Prop :=
  ∀ (s : State) (rd ra : VReg) (rb : SReg) (rc : VReg),
    let e := (s.readS rb).toNat
    let n := if e = 0 then 1 else (s.readV ra).val ^ e % (s.readV rc).val
    ((s.readV ra).valid = false ∨ (s.readV rc).valid = false →
      exec (.modpoww rd ra rb rc) s = .next (s.raise .invariant)) ∧
    ((s.readV ra).valid = true → (s.readV rc).valid = true →
      ((s.readV rc).val ≠ 0 → exec (.modpoww rd ra rb rc) s = .next (s.writeV rd (limbsOf n)).complete) ∧
      ((s.readV rc).val = 0 → exec (.modpoww rd ra rb rc) s = .next (s.raise .divZero)))

/-! The primality tester (45_miller_rabin) -/

/-- 45_miller_rabin R200 to R203: the verdict is Miller-Rabin's on the numbers, with the witnesses the source's words
give; `m` rounds are started, none for a number below 5 or even, none after a rejecting round. -/
def Obligations.MrtestResult : Prop :=
  ∀ (s : State) (rd : SReg) (ra : VReg) (rb : SReg),
    let n := (s.readV ra).val
    let k := (s.readS rb).toNat
    let wb := Nat.log2 n
    ((s.readV ra).valid = false → exec (.mrtest rd ra rb) s = .next (s.raise .invariant)) ∧
    ((s.readV ra).valid = true → ∃ (v : Bool) (m : Nat),
      exec (.mrtest rd ra rb) s =
        .next ((s.setRbs (rbsAfter wb m s.rbs)).writeS rd (if v then 1#64 else 0#64)).complete ∧
      (v = true ↔ n = 2 ∨ n = 3 ∨ (5 ≤ n ∧ n % 2 = 1 ∧ ∀ j, j < k → StrongRound n (witnessAt wb j s.rbs))) ∧
      (n < 5 ∨ n % 2 = 0 → m = 0) ∧
      (5 ≤ n → n % 2 = 1 → (v = true → m = k) ∧
        (v = false → 0 < m ∧ m ≤ k ∧ ¬StrongRound n (witnessAt wb (m - 1) s.rbs) ∧
          ∀ j, j < m - 1 → StrongRound n (witnessAt wb j s.rbs))))

/-- 45_miller_rabin R203: every witness lies in `[2^(bl-2), 2^(bl-1))` and in `[2, n-2]`, and a round takes
`ceil((bl-1)/64)` words, for an odd n of 5 or more with bit length bl. Holds for every word the source gives. -/
def Obligations.WitnessesLieInRange : Prop :=
  ∀ (n : Value) (r : Rbs), n.valid = true → 5 ≤ n.val → n.val % 2 = 1 →
    let bl := bitLen n
    let a := (randValue (bl - 1) r).1.val
    bl = Nat.log2 n.val + 1 ∧ 2 ^ (bl - 2) ≤ a ∧ a < 2 ^ (bl - 1) ∧ 2 ≤ a ∧ a ≤ n.val - 2 ∧
      (randValue (bl - 1) r).2.drawn = r.drawn + (bl - 1 + 63) / 64

/-- A prime is accepted for every round count and every word drawn, so MRTEST never rejects a prime (the property
behind 45_miller_rabin R204's "must accept known primes"; that rule calls the theorem general knowledge). -/
def Obligations.MrtestAcceptsEveryPrime : Prop :=
  ∀ (s : State) (rd : SReg) (ra : VReg) (rb : SReg), (s.readV ra).valid = true → (s.readV ra).val.Prime →
    ∃ r, exec (.mrtest rd ra rb) s = .next ((s.setRbs r).writeS rd 1#64).complete

/-- 45_miller_rabin R204: 2 and 3 accepted and 4 rejected without a draw, 97 accepted always, 9 and 15 rejected from one
round on, 561 rejected exactly when the witness of some round is none of its five liars. -/
def Obligations.MrtestKnownOutcomes : Prop :=
  ∀ (k : Nat) (r : Rbs),
    millerRabin (limbsOf 2) k r = (true, r) ∧ millerRabin (limbsOf 3) k r = (true, r) ∧
    millerRabin (limbsOf 4) k r = (false, r) ∧ (millerRabin (limbsOf 97) k r).1 = true ∧
    (1 ≤ k → (millerRabin (limbsOf 9) k r).1 = false ∧ (millerRabin (limbsOf 15) k r).1 = false) ∧
    ((millerRabin (limbsOf 561) k r).1 = false ↔
      ∃ j, j < k ∧ witnessAt 9 j r ∉ [256, 305, 458, 460, 511])

/-! The prime generator (46_prime_generator) -/

/-- 46_prime_generator R220 to R223: one iteration, whether the command begins (bit count read and within capacity) or
goes on. The candidate is the drawn value with bit 0 forced; divisible by a table entry or rejected, the CORE stays
BUSY with no register changed; accepted, the register is written and the command completes. A GENPRIME that begins
with a bit count above `64*LMAX` raises `CAPACITY` before any draw. -/
def Obligations.GenprimeIteration : Prop :=
  (∀ (s : State) (rd : VReg) (ra : SReg), (∀ b, s.mode ≠ .busy (some b)) →
    s.overBits (s.readS ra).toNat = true → exec (.genprime rd ra) s = .next (s.raise .capacity)) ∧
  (∀ (s : State) (rd : VReg) (ra : SReg) (bits : Word), s.params.spt.contains 0#64 = false →
    (s.mode = .busy (some bits) ∨
      ((∀ b, s.mode ≠ .busy (some b)) ∧ s.readS ra = bits ∧ s.overBits bits.toNat = false)) →
    let x := randValue bits.toNat s.rbs
    let c := limbsOf (x.1.val ||| 1)
    let test := millerRabin c 40 x.2
    ((∃ p ∈ s.params.spt, p.toNat ∣ c.val) →
      exec (.genprime rd ra) s = .next ((s.setRbs x.2).setMode (.busy (some bits)))) ∧
    ((∀ p ∈ s.params.spt, ¬p.toNat ∣ c.val) → test.1 = false →
      exec (.genprime rd ra) s = .next ((s.setRbs test.2).setMode (.busy (some bits)))) ∧
    ((∀ p ∈ s.params.spt, ¬p.toNat ∣ c.val) → test.1 = true →
      exec (.genprime rd ra) s = .next ((s.setRbs test.2).writeV rd c).complete))

/-- 46_prime_generator R224: a GENPRIME that completes leaves a value of exactly `bits` bits (at least 2), odd, divided
by no table entry, accepted by the tester in that run. -/
def Obligations.GenprimeGuarantee : Prop :=
  ∀ (s t : State) (rd : VReg) (ra : SReg) (bits : Nat),
    (s.mode = .busy (some (BitVec.ofNat 64 bits)) ∨
      ((∀ b, s.mode ≠ .busy (some b)) ∧ s.readS ra = BitVec.ofNat 64 bits)) → bits < 2 ^ 64 →
    exec (.genprime rd ra) s = .next t → t.mode = .idle →
    let c := t.readV rd
    c.valid = true ∧ bitLen c = bits ∧ 2 ≤ bits ∧ parityV c = true ∧
      (∀ p ∈ s.params.spt, ¬p.toNat ∣ c.val) ∧ (millerRabin c 40 (randValue bits s.rbs).2).1 = true

/-- 46_prime_generator R226: with a bit count of 0 or 1 GENPRIME never ends: after any number of steps the CORE is
still BUSY and no register has changed. Holds for every table of primes and every word drawn. -/
def Obligations.GenprimeOfTinyBitsNeverEnds : Prop :=
  ∀ (s : State) (rd : VReg) (ra : SReg) (bits : Word) (n : Nat), bits.toNat ≤ 1 →
    s.params.spt.contains 0#64 = false → decode s.cw = .ok (.genprime rd ra) → s.mode = .busy (some bits) →
    s.host = [] →
    ∃ t, core.run n s = .next t ∧ t.mode = .busy (some bits) ∧ t.v = s.v ∧ t.s = s.s

/-! Laws between commands (41_add_sub_mul R136, 42_shift R152) -/

/-- 41_add_sub_mul R136, limb for limb: `(a - b) + b = a` and `(a + b) - b = a` where nothing faults; addition and
multiplication commutative and associative; multiplication distributes over addition. -/
def Obligations.ArithmeticLaws : Prop :=
  (∀ (s t : State) (rd ra rb : VReg), rd ≠ rb → s.lmaxLegal = true → (s.readV ra).valid = true →
    (s.readV rb).valid = true → s.holds (s.readV ra).val = true →
    exec (.sub rd ra rb) s = .next t → t.mode = .idle →
    exec (.add rd rd rb) t = .next (t.writeV rd (s.readV ra))) ∧
  (∀ (s t : State) (rd ra rb : VReg), rd ≠ rb → (s.readV ra).valid = true → (s.readV rb).valid = true →
    exec (.add rd ra rb) s = .next t → t.mode = .idle →
    exec (.sub rd rd rb) t = .next (t.writeV rd (s.readV ra))) ∧
  (∀ (s : State) (rd ra rb : VReg), exec (.add rd ra rb) s = exec (.add rd rb ra) s ∧
    exec (.mul rd ra rb) s = exec (.mul rd rb ra) s) ∧
  (∀ a b c : Value, addV (addV a b) c = addV a (addV b c) ∧ mulV (mulV a b) c = mulV a (mulV b c) ∧
    mulV a (addV b c) = addV (mulV a b) (mulV a c))

/-- 42_shift R152: `(a << k) >> k = a` where SHL does not fault; the other order loses the low bits. -/
def Obligations.ShiftRoundTrip : Prop :=
  (∀ (s t : State) (rd ra : VReg) (rb : SReg), (s.readV ra).valid = true →
    exec (.shl rd ra rb) s = .next t → t.mode = .idle →
    exec (.shr rd rb) t = .next (t.writeV rd (s.readV ra))) ∧
  (∀ (a : Value) (k : Nat), (shlV (shrV a k) k).val = a.val - a.val % 2 ^ k)

/-! Text forms (40_limb_store R112 to R116) -/

/-- 40_limb_store R112 to R114: a digit string means the number it spells, most significant digit first; the empty string
and a character outside the alphabet fail; the two alphabets. -/
def Obligations.DigitStringsMeanNumbers : Prop :=
  let digits := ['0', '1', '2', '3', '4', '5', '6', '7', '8', '9']
  let lower := ['a', 'b', 'c', 'd', 'e', 'f']
  let upper := ['A', 'B', 'C', 'D', 'E', 'F']
  (∀ s : List Char, fromBinary s = none ↔ s = [] ∨ ∃ c ∈ s, binDigit c = none) ∧
  (∀ s : List Char, fromHex s = none ↔ s = [] ∨ ∃ c ∈ s, hexDigit c = none) ∧
  (∀ (s : List Char) (v : Value), fromBinary s = some v →
    v = limbsOf (s.foldl (fun n c => 2 * n + (binDigit c).getD 0) 0)) ∧
  (∀ (s : List Char) (v : Value), fromHex s = some v →
    v = limbsOf (s.foldl (fun n c => 16 * n + (hexDigit c).getD 0) 0)) ∧
  (∀ c : Char, binDigit c = if c = '0' then some 0 else if c = '1' then some 1 else none) ∧
  (∀ d, d < 16 → hexDigit ((digits ++ lower).getD d ' ') = some d ∧
    hexDigit ((digits ++ upper).getD d ' ') = some d) ∧
  (∀ c : Char, c ∉ digits ++ lower ++ upper → hexDigit c = none)

/-- 40_limb_store R115, R116: renderings have `64*len` and `16*len` characters, parsing one gives the value
back, and hexadecimal renders lower case. -/
def Obligations.RenderingsParseBack : Prop :=
  ∀ a : Value, a.valid = true →
    (toBinary a).length = 64 * a.len ∧ (toHex a).length = 16 * a.len ∧
    fromBinary (toBinary a) = some a ∧ fromHex (toHex a) = some a ∧
    (∀ c ∈ toBinary a, c = '0' ∨ c = '1') ∧ (∀ c ∈ toHex a,
      c ∈ ['0', '1', '2', '3', '4', '5', '6', '7', '8', '9', 'a', 'b', 'c', 'd', 'e', 'f'])
end

