-- ==== Sys2Proof/Laws/Limbs.lean ====
section
/-! SUPPORT. What the functions on limb vectors compute, as numbers: one lemma per function, that its result is
normalized and one that says its number. The proofs of the statements cite these and unfold no loop. -/
namespace Sys2Proof.Machine

theorem bne_zero_toNat {w : Nat} (x : BitVec w) : (x != 0#w).toNat = if x.toNat = 0 then 0 else 1 := by
  by_cases h : x = 0#w
  · simp [h]
  · have hx : x.toNat ≠ 0 := fun h' => h (BitVec.eq_of_toNat_eq (by simpa using h'))
    rw [show (x != 0#w) = true by simpa using h, if_neg hx]; rfl

theorem adc64_toNat (a b : Word) (c : Bool) :
    (adc64 a b c).1.toNat = (a.toNat + b.toNat + c.toNat) % 2 ^ 64 ∧
      (adc64 a b c).2.toNat = (a.toNat + b.toNat + c.toNat) / 2 ^ 64 := by
  have ha := a.isLt
  have hb := b.isLt
  have hc : c.toNat ≤ 1 := by cases c <;> simp
  have hs : (a.setWidth 128 + b.setWidth 128 + (BitVec.ofBool c).setWidth 128).toNat =
      a.toNat + b.toNat + c.toNat := by
    simp only [BitVec.toNat_add, BitVec.toNat_setWidth, BitVec.toNat_ofBool]; omega
  unfold adc64
  generalize a.setWidth 128 + b.setWidth 128 + (BitVec.ofBool c).setWidth 128 = N at hs
  simp only [bne_zero_toNat, BitVec.extractLsb'_toNat, Nat.shiftRight_eq_div_pow]
  split <;> omega

theorem sbb64_toNat (a b : Word) (c : Bool) :
    (sbb64 a b c).1.toNat + b.toNat + c.toNat = a.toNat + 2 ^ 64 * (sbb64 a b c).2.toNat := by
  have ha := a.isLt
  have hb := b.isLt
  have hc : c.toNat ≤ 1 := by cases c <;> simp
  unfold sbb64
  split <;> simp only [BitVec.toNat_ofNat, Bool.toNat_true, Bool.toNat_false] <;> omega

theorem mac64_toNat (o a b c : Word) :
    (mac64 o a b c).1.toNat = (o.toNat + a.toNat * b.toNat + c.toNat) % 2 ^ 64 ∧
      (mac64 o a b c).2.toNat = (o.toNat + a.toNat * b.toNat + c.toNat) / 2 ^ 64 := by
  have ho := o.isLt
  have hc := c.isLt
  have ha := a.isLt
  have hb := b.isLt
  have hab : a.toNat * b.toNat ≤ (2 ^ 64 - 1) * (2 ^ 64 - 1) := Nat.mul_le_mul (by omega) (by omega)
  have hs : (o.setWidth 128 + a.setWidth 128 * b.setWidth 128 + c.setWidth 128).toNat =
      o.toNat + a.toNat * b.toNat + c.toNat := by
    simp only [BitVec.toNat_add, BitVec.toNat_mul, BitVec.toNat_setWidth]
    rw [Nat.mod_eq_of_lt (a := o.toNat) (by omega), Nat.mod_eq_of_lt (a := a.toNat) (by omega),
      Nat.mod_eq_of_lt (a := b.toNat) (by omega), Nat.mod_eq_of_lt (a := c.toNat) (by omega)]
    omega
  unfold mac64
  generalize o.setWidth 128 + a.setWidth 128 * b.setWidth 128 + c.setWidth 128 = N at hs
  have hN := N.isLt
  simp only [BitVec.extractLsb'_toNat, Nat.shiftRight_eq_div_pow]
  omega

theorem stripHigh_cons (x : Word) (xs : List Word) :
    stripHigh (x :: xs) = if stripHigh xs = [] ∧ x = 0#64 then [] else x :: stripHigh xs := by
  rw [stripHigh]
  cases h : stripHigh xs with
  | nil => simp only [true_and]
  | cons y ys => simp

theorem stripHigh_eq_nil (l : List Word) : stripHigh l = [] ↔ limbsVal l = 0 := by
  induction l with
  | nil => simp [stripHigh, limbsVal]
  | cons x xs ih =>
    rw [stripHigh_cons, limbsVal]
    have : x = 0#64 ↔ x.toNat = 0 := ⟨fun h => by simp [h], fun h => BitVec.eq_of_toNat_eq (by simpa using h)⟩
    simp only [ih, this]
    split
    · simp; omega
    · simp; omega

theorem limbsVal_stripHigh (l : List Word) : limbsVal (stripHigh l) = limbsVal l := by
  induction l with
  | nil => rfl
  | cons x xs ih =>
    rw [stripHigh_cons]
    split
    · rename_i h
      have := (stripHigh_eq_nil xs).1 h.1
      simp [limbsVal, h.2, this]
    · simp [limbsVal, ih]

theorem stripHigh_congr : ∀ a b : List Word, limbsVal a = limbsVal b → stripHigh a = stripHigh b
  | [], b, h => ((stripHigh_eq_nil b).2 h.symm).symm
  | x :: xs, [], h => (stripHigh_eq_nil (x :: xs)).2 h
  | x :: xs, y :: ys, h => by
    simp only [limbsVal] at h
    have hx := x.isLt
    have hy := y.isLt
    have hxy : x = y := BitVec.eq_of_toNat_eq (by omega)
    have := stripHigh_congr xs ys (by omega)
    rw [stripHigh_cons, stripHigh_cons, this, hxy]

theorem limbs_ofLimbs_val (l : List Word) : (Value.ofLimbs l).val = limbsVal l := by
  cases l <;> simp [Value.ofLimbs, Value.val, Value.limbs, Value.zero, limbsVal]

@[simp] theorem norm_val (l : List Word) : (norm l).val = limbsVal l := by
  rw [norm, limbs_ofLimbs_val, limbsVal_stripHigh]

theorem stripHigh_last (l : List Word) (x : Word) (xs : List Word) (h : stripHigh l = x :: xs) :
    xs.getLastD x ≠ 0#64 := by
  induction l generalizing x xs with
  | nil => simp [stripHigh] at h
  | cons y ys ih =>
    rw [stripHigh_cons] at h
    split at h
    · cases h
    · rename_i hn
      injection h with h1 h2
      subst h1
      cases hs : stripHigh ys with
      | nil =>
        rw [hs] at h2 hn; subst h2; simpa using hn
      | cons z zs =>
        have := ih z zs hs
        rw [hs] at h2; subst h2
        rwa [List.getLastD_cons]

@[simp] theorem norm_valid (l : List Word) : (norm l).valid = true := by
  unfold norm
  cases h : stripHigh l with
  | nil => rfl
  | cons x xs =>
    have := stripHigh_last l x xs h
    simp only [Value.valid, Value.ofLimbs, Value.top, Bool.or_eq_true, bne_iff_ne]; exact .inr this

theorem norm_of_valid (a : Value) (h : a.valid = true) : norm a.limbs = a := by
  have key : ∀ (x : Word) (xs : List Word), (xs.isEmpty || xs.getLastD x != 0#64) = true → Value.ofLimbs (stripHigh (x :: xs)) = ⟨x, xs⟩ := by
    intro x xs
    induction xs generalizing x with
    | nil =>
      intro _
      rw [stripHigh_cons]
      by_cases hx : x = 0#64 <;> simp [stripHigh, hx, Value.ofLimbs, Value.zero]
    | cons y ys ih =>
      intro h
      have h' : (ys.isEmpty || ys.getLastD y != 0#64) = true := by
        rw [List.getLastD_cons] at h
        simp only [Bool.or_eq_true] at h ⊢
        exact .inr (h.resolve_left (by simp))
      have := ih y h'
      rw [stripHigh_cons]
      cases hs : stripHigh (y :: ys) with
      | nil =>
        rw [hs] at this
        simp [Value.ofLimbs, Value.zero] at this
        obtain ⟨rfl, rfl⟩ := this
        simp at h
      | cons z zs =>
        rw [hs] at this
        simp [Value.ofLimbs] at this ⊢
        simp [this]
  exact key a.low a.high h

theorem norm_congr {a b : List Word} (h : limbsVal a = limbsVal b) : norm a = norm b := by
  rw [norm, norm, stripHigh_congr a b h]

theorem eq_of_val {a b : Value} (ha : a.valid = true) (hb : b.valid = true) (h : a.val = b.val) : a = b := by
  rw [← norm_of_valid a ha, ← norm_of_valid b hb]; exact norm_congr h

theorem limbsVal_append (a b : List Word) :
    limbsVal (a ++ b) = limbsVal a + 2 ^ (64 * a.length) * limbsVal b := by
  induction a with
  | nil => simp [limbsVal]
  | cons x xs ih =>
    simp only [List.cons_append, limbsVal, ih, List.length_cons, Nat.mul_add, Nat.pow_add]; ring

theorem limbsVal_lt (l : List Word) : limbsVal l < 2 ^ (64 * l.length) := by
  induction l with
  | nil => simp [limbsVal]
  | cons x xs ih =>
    simp only [limbsVal, List.length_cons, Nat.mul_add, Nat.pow_add, Nat.mul_one]
    have := x.isLt
    nlinarith

theorem limbsVal_digits (n m : Nat) :
    limbsVal ((List.range m).map fun j => BitVec.ofNat 64 (n / 2 ^ (64 * j))) = n % 2 ^ (64 * m) := by
  induction m with
  | zero => simp [limbsVal, Nat.mod_one]
  | succ m ih =>
    rw [List.range_succ, List.map_append, limbsVal_append, ih]
    simp only [List.length_map, List.length_range, List.map_cons, List.map_nil, limbsVal, BitVec.toNat_ofNat]
    rw [Nat.mul_add 64 m 1, Nat.pow_add, Nat.mod_mul]; simp

theorem limbsOf_valid (n : Nat) : (limbsOf n).valid = true := by
  unfold limbsOf
  rw [List.range_succ, List.map_append]
  generalize hm : Nat.log2 n / 64 = m
  cases m with
  | zero => simp [Value.ofLimbs, Value.valid]
  | succ k =>
    rw [List.range_succ_eq_map]
    simp only [List.map_cons, List.cons_append, Value.ofLimbs, Value.valid, Value.top]
    simp only [List.map_nil, Bool.or_eq_true]
    right
    rw [List.getLastD_eq_getLast?, List.getLast?_append]
    simp
    intro h0
    have hn : n ≠ 0 := by rintro rfl; simp at hm
    have h1 := Nat.log2_self_le hn
    have h2 : n < 2 ^ (Nat.log2 n + 1) := Nat.lt_log2_self
    have := congrArg BitVec.toNat h0
    simp only [BitVec.toNat_ofNat, Nat.zero_mod] at this
    have h3 : 2 ^ (64 * (k+1)) ≤ n := le_trans (Nat.pow_le_pow_right (by norm_num) (by omega)) h1
    have h4 : n < 2 ^ (64*(k+1)) * 2^64 := by
      rw [← Nat.pow_add]; exact lt_of_lt_of_le h2 (Nat.pow_le_pow_right (by norm_num) (by omega))
    have h5 : n / 2 ^ (64 * (k+1)) < 2^64 := Nat.div_lt_of_lt_mul h4
    have h6 : 0 < n / 2 ^ (64 * (k+1)) := Nat.div_pos h3 (by positivity)
    rw [Nat.mod_eq_of_lt h5] at this
    omega

@[simp] theorem limbsOf_val (n : Nat) : (limbsOf n).val = n := by
  unfold limbsOf
  rw [limbs_ofLimbs_val, limbsVal_digits]
  apply Nat.mod_eq_of_lt
  have h2 : n < 2 ^ (Nat.log2 n + 1) := Nat.lt_log2_self
  exact lt_of_lt_of_le h2 (Nat.pow_le_pow_right (by norm_num) (by omega))

theorem limbsOf_of_val {a : Value} (h : a.valid = true) : limbsOf a.val = a :=
  eq_of_val (limbsOf_valid _) h (limbsOf_val _)

theorem norm_eq_limbsOf (l : List Word) : norm l = limbsOf (limbsVal l) :=
  eq_of_val (norm_valid _) (limbsOf_valid _) (by simp)

theorem eq_limbsOf {a : Value} {n : Nat} (h : a.valid = true) (hn : a.val = n) : a = limbsOf n := hn ▸ (limbsOf_of_val h).symm

theorem limbsVal_headD (l : List Word) : limbsVal l = (l.headD 0#64).toNat + 2 ^ 64 * limbsVal l.tail := by
  cases l <;> simp [limbsVal]

theorem addLimbs_val (n : Nat) (a b : List Word) (c : Bool) (ha : a.length ≤ n) (hb : b.length ≤ n) :
    limbsVal (addLimbs n a b c) = limbsVal a + limbsVal b + c.toNat := by
  induction n generalizing a b c with
  | zero =>
    rw [List.length_eq_zero_iff.1 (Nat.le_zero.1 ha), List.length_eq_zero_iff.1 (Nat.le_zero.1 hb)]
    cases c <;> simp [addLimbs, limbsVal]
  | succ n ih =>
    rw [addLimbs, limbsVal, ih _ _ _ (by simp; omega) (by simp; omega), limbsVal_headD a, limbsVal_headD b]
    have := adc64_toNat (a.headD 0#64) (b.headD 0#64) c
    omega

theorem limbs_length (a : Value) : a.limbs.length = a.len := by simp [Value.limbs, Value.len]

theorem addV_val (a b : Value) : (addV a b).val = a.val + b.val := by
  rw [addV, norm_val, addLimbs_val _ _ _ _ (by rw [limbs_length]; omega) (by rw [limbs_length]; omega)]
  simp [Value.val]

theorem addV_valid (a b : Value) : (addV a b).valid = true := norm_valid _

theorem val_lt (a : Value) : a.val < 2 ^ (64 * a.len) := by
  have := limbsVal_lt a.limbs; rwa [limbs_length] at this

theorem limbs_eq (a : Value) : a.limbs = (a.limbs.take (a.len - 1)) ++ [a.top] := by
  have key : ∀ (x : Word) (xs : List Word), x :: xs = (x :: xs).take xs.length ++ [xs.getLastD x] := by
    intro x xs
    induction xs generalizing x with
    | nil => rfl
    | cons y ys ih => 
      rw [List.getLastD_cons, List.length_cons, List.take_succ_cons, List.cons_append, ← ih y]
  simpa [Value.limbs, Value.len, Value.top] using key a.low a.high

theorem val_eq_top (a : Value) : ∃ lo, lo < 2 ^ (64 * (a.len - 1)) ∧ a.val = lo + 2 ^ (64 * (a.len - 1)) * a.top.toNat := by
  refine ⟨limbsVal (a.limbs.take (a.len - 1)), ?_, ?_⟩
  · have := limbsVal_lt (a.limbs.take (a.len - 1))
    rwa [List.length_take, limbs_length, Nat.min_eq_left (by omega)] at this
  · conv_lhs => rw [Value.val, limbs_eq a, limbsVal_append]
    rw [List.length_take, limbs_length, Nat.min_eq_left (by omega)]
    simp [limbsVal]

theorem len_pos (a : Value) : 0 < a.len := by simp [Value.len]

theorem top_ne_zero {a : Value} (h : a.valid = true) (hl : 1 < a.len) : a.top ≠ 0#64 := by
  simp only [Value.valid, Bool.or_eq_true, bne_iff_ne] at h
  rcases h with h | h
  · simp [Value.len] at hl h; simp [h] at hl
  · exact h

theorem toNat_pos_of_ne {x : Word} (h : x ≠ 0#64) : 0 < x.toNat :=
  Nat.pos_of_ne_zero fun h' => h (BitVec.eq_of_toNat_eq (by simpa using h'))

theorem val_ge {a : Value} (h : a.valid = true) (hl : 1 < a.len) : 2 ^ (64 * (a.len - 1)) ≤ a.val := by
  obtain ⟨lo, -, he⟩ := val_eq_top a
  have := toNat_pos_of_ne (top_ne_zero h hl)
  rw [he]; nlinarith [Nat.pos_of_ne_zero (show 2 ^ (64 * (a.len - 1)) ≠ 0 by positivity)]

theorem len_le_of_val_le {a b : Value} (hb : b.valid = true) (h : b.val ≤ a.val) : b.len ≤ a.len := by
  by_contra hc
  have h1 := val_ge hb (by have := len_pos a; omega)
  have h2 := val_lt a
  have : 2 ^ (64 * a.len) ≤ 2 ^ (64 * (b.len - 1)) := Nat.pow_le_pow_right (by norm_num) (by omega)
  omega

theorem len_le_iff {a : Value} (h : a.valid = true) {l : Nat} (hl : 0 < l) : a.len ≤ l ↔ a.val < 2 ^ (64 * l) := by
  constructor
  · intro hle
    exact lt_of_lt_of_le (val_lt a) (Nat.pow_le_pow_right (by norm_num) (by omega))
  · intro hlt
    by_contra hc
    have h1 := val_ge h (by omega)
    have : 2 ^ (64 * l) ≤ 2 ^ (64 * (a.len - 1)) := Nat.pow_le_pow_right (by norm_num) (by omega)
    omega

theorem eq_zero_iff {a : Value} (h : a.valid = true) : a = Value.zero ↔ a.val = 0 :=
  ⟨fun h => by simp [h, Value.val, Value.limbs, Value.zero, limbsVal], fun hv => eq_of_val h rfl (by rw [hv]; simp [Value.val, Value.limbs, Value.zero, limbsVal])⟩

theorem zero_val : Value.zero.val = 0 := by simp [Value.val, Value.limbs, Value.zero, limbsVal]
theorem zero_valid : Value.zero.valid = true := rfl

theorem subLimbs_val (a b : List Word) (c : Bool) (hl : b.length ≤ a.length) (h : limbsVal b + c.toNat ≤ limbsVal a) :
    limbsVal (subLimbs a b c) + limbsVal b + c.toNat = limbsVal a := by
  induction a generalizing b c with
  | nil =>
    rw [List.length_eq_zero_iff.1 (Nat.le_zero.1 hl)] at *
    simp [subLimbs, limbsVal] at *; exact h
  | cons x xs ih =>
    have hs := sbb64_toNat x (b.headD 0#64) c
    have hb := limbsVal_headD b
    have hd := (sbb64 x (b.headD 0#64) c).1.isLt
    rw [subLimbs, limbsVal, limbsVal]
    rw [limbsVal] at h
    have := ih b.tail (sbb64 x (b.headD 0#64) c).2 (by simp at hl ⊢; omega) (by omega)
    omega

theorem subV_val {a b : Value} (hb : b.valid = true) (h : b.val ≤ a.val) : (subV a b).val = a.val - b.val := by
  have := subLimbs_val a.limbs b.limbs false (by rw [limbs_length, limbs_length]; exact len_le_of_val_le hb h) (by simpa [Value.val] using h)
  rw [subV, norm_val]
  simp [Value.val] at *; omega

theorem macRow_length (x : Word) (o b : List Word) (c : Word) : (macRow x o b c).length = b.length + 1 := by
  induction b generalizing o c with
  | nil => rfl
  | cons y ys ih => simp [macRow, ih]

theorem macRow_val (x : Word) (o b : List Word) (c : Word) (hl : o.length ≤ b.length) :
    limbsVal (macRow x o b c) = x.toNat * limbsVal b + limbsVal o + c.toNat := by
  induction b generalizing o c with
  | nil =>
    rw [List.length_eq_zero_iff.1 (Nat.le_zero.1 hl)]
    simp [macRow, limbsVal]
  | cons y ys ih =>
    rw [macRow, limbsVal, ih _ _ (by simp at hl ⊢; omega), limbsVal_headD o, limbsVal]
    have := mac64_toNat (o.headD 0#64) x y c
    have e : x.toNat * (y.toNat + 2 ^ 64 * limbsVal ys) = x.toNat * y.toNat + 2 ^ 64 * (x.toNat * limbsVal ys) := by ring
    omega

theorem mulRows_val (a b o : List Word) (hl : o.length ≤ b.length) :
    limbsVal (mulRows a b o) = limbsVal a * limbsVal b + limbsVal o := by
  induction a generalizing o with
  | nil => simp [mulRows, limbsVal]
  | cons x xs ih =>
    have h1 := macRow_val x o b 0#64 hl
    have h2 := macRow_length x o b 0#64
    rw [limbsVal_headD] at h1
    rw [mulRows, limbsVal, ih _ (by simp [h2]), limbsVal, Nat.add_mul, Nat.mul_add, Nat.mul_assoc]
    simp at h1 ⊢
    omega

theorem subV_valid (a b : Value) : (subV a b).valid = true := norm_valid _

theorem mulV_valid (a b : Value) : (mulV a b).valid = true := by
  unfold mulV; split
  · rfl
  · exact norm_valid _

theorem mulV_val (a b : Value) : (mulV a b).val = a.val * b.val := by
  unfold mulV
  split
  · rename_i h
    rcases h with rfl | rfl <;> simp [zero_val]
  · rw [norm_val, mulRows_val _ _ _ (by simp)]
    simp [Value.val, limbsVal]

theorem or_toNat_of_lt (x c : Word) (r : Nat) (hr : r < 64) (hc : c.toNat < 2 ^ r) :
    ((x <<< r) ||| c).toNat + 2 ^ 64 * (x >>> (64 - r)).toNat = x.toNat * 2 ^ r + c.toNat := by
  have hx := x.isLt
  rw [BitVec.toNat_or, BitVec.toNat_shiftLeft, BitVec.toNat_ushiftRight]
  have e : (2:Nat) ^ 64 = 2 ^ r * 2 ^ (64 - r) := by rw [← Nat.pow_add]; congr 1; omega
  have h1 : x.toNat <<< r % 2 ^ 64 = (x.toNat % 2 ^ (64 - r)) <<< r := by
    rw [Nat.shiftLeft_eq, Nat.shiftLeft_eq, e, Nat.mul_comm, Nat.mul_mod_mul_left, Nat.mul_comm]
  rw [h1, ← Nat.shiftLeft_add_eq_or_of_lt hc, Nat.shiftLeft_eq, Nat.shiftRight_eq_div_pow, e]
  have := Nat.div_add_mod x.toNat (2 ^ (64 - r))
  generalize x.toNat / 2^(64-r) = q at *
  generalize x.toNat % 2^(64-r) = m at *
  rw [← this]; ring

theorem shlLimbs_val (r : Nat) (hr : r < 64) (l : List Word) (c : Word) (hc : c.toNat < 2 ^ r) :
    limbsVal (shlLimbs r l c) = limbsVal l * 2 ^ r + c.toNat := by
  induction l generalizing c with
  | nil =>
    rw [shlLimbs]
    split
    · rename_i h; subst h; simp at hc; simp [limbsVal, hc]
    · simp [limbsVal]
  | cons x xs ih =>
    rw [shlLimbs]
    split
    · rename_i h; subst h; simp at hc
      simp [limbsVal, ih c (by simp [hc]), hc]
    · have := or_toNat_of_lt x c r hr hc
      rw [limbsVal, ih, limbsVal]
      · rw [Nat.add_mul]; nlinarith
      · rw [BitVec.toNat_ushiftRight, Nat.shiftRight_eq_div_pow]
        apply Nat.div_lt_of_lt_mul
        rw [← Nat.pow_add]
        exact lt_of_lt_of_le x.isLt (Nat.pow_le_pow_right (by norm_num) (by omega))

theorem limbsVal_replicate (q : Nat) : limbsVal (List.replicate q 0#64) = 0 := by
  induction q with
  | zero => rfl
  | succ q ih => simp [List.replicate_succ, limbsVal, ih]

theorem shlV_valid (a : Value) (k : Nat) : (shlV a k).valid = true := by
  unfold shlV; split
  · rfl
  · exact norm_valid _

theorem shlV_val (a : Value) (k : Nat) : (shlV a k).val = a.val * 2 ^ k := by
  unfold shlV
  split
  · rename_i h; simp [h, zero_val]
  · rw [norm_val, limbsVal_append, limbsVal_replicate, List.length_replicate, shlLimbs_val _ (Nat.mod_lt _ (by norm_num)) _ _ (by simp)]
    rw [Value.val]
    conv_rhs => rw [← Nat.div_add_mod k 64, Nat.pow_add]
    simp; ring

theorem shrLimbs_val (r : Nat) (hr : r < 64) (l : List Word) : limbsVal (shrLimbs r l) = limbsVal l / 2 ^ r := by
  have e : (2:Nat) ^ 64 = 2 ^ r * 2 ^ (64 - r) := by rw [← Nat.pow_add]; congr 1; omega
  induction l with
  | nil => simp [shrLimbs, limbsVal]
  | cons x xs ih =>
    rw [shrLimbs, limbsVal, ih, limbsVal]
    have hx := x.isLt
    have hhead : ((x >>> r) ||| (if r = 0 then 0#64 else xs.headD 0#64 <<< (64 - r))).toNat = x.toNat / 2 ^ r + (limbsVal xs % 2 ^ r) * 2 ^ (64 - r) := by
      by_cases h0 : r = 0
      · subst h0; simp [Nat.mod_one]
      · rw [if_neg h0, BitVec.toNat_or, BitVec.toNat_shiftLeft, BitVec.toNat_ushiftRight]
        have hT : limbsVal xs % 2 ^ r = (xs.headD 0#64).toNat % 2 ^ r := by
          rw [limbsVal_headD xs, e, Nat.mul_assoc, Nat.add_mul_mod_self_left]
        have h1 : (xs.headD 0#64).toNat <<< (64 - r) % 2 ^ 64 = ((xs.headD 0#64).toNat % 2 ^ r) <<< (64 - r) := by
          rw [Nat.shiftLeft_eq, Nat.shiftLeft_eq, e, Nat.mul_comm (2^r), Nat.mul_comm (xs.headD 0#64).toNat, Nat.mul_mod_mul_left, Nat.mul_comm]
        rw [h1, Nat.or_comm, ← Nat.shiftLeft_add_eq_or_of_lt, hT, Nat.shiftLeft_eq, Nat.shiftRight_eq_div_pow, Nat.add_comm]
        rw [Nat.shiftRight_eq_div_pow]
        exact Nat.div_lt_of_lt_mul (by rw [← e]; exact hx)
    rw [hhead]
    have hp : 0 < 2 ^ r := by positivity
    rw [e]; simp only [Nat.mul_assoc]; rw [Nat.add_mul_div_left _ _ hp]
    have := Nat.div_add_mod (limbsVal xs) (2 ^ r)
    generalize limbsVal xs / 2^r = q at *
    generalize limbsVal xs % 2^r = m at *
    rw [← this]; ring

theorem limbsVal_drop (l : List Word) (q : Nat) : limbsVal (l.drop q) = limbsVal l / 2 ^ (64 * q) := by
  induction q generalizing l with
  | zero => simp
  | succ q ih =>
    cases l with
    | nil => simp [limbsVal]
    | cons x xs =>
      rw [List.drop_succ_cons, ih, limbsVal, Nat.mul_add, Nat.add_comm (64*q), Nat.pow_add, ← Nat.div_div_eq_div_mul]
      congr 1
      have := x.isLt
      omega

theorem shrV_valid (a : Value) (k : Nat) : (shrV a k).valid = true := by
  unfold shrV; split
  · rfl
  · exact norm_valid _

theorem shrV_val (a : Value) (k : Nat) : (shrV a k).val = a.val / 2 ^ k := by
  unfold shrV
  split
  · rename_i h
    rw [zero_val]
    symm; apply Nat.div_eq_of_lt
    exact lt_of_lt_of_le (val_lt a) (Nat.pow_le_pow_right (by norm_num) (by omega))
  · rw [norm_val, shrLimbs_val _ (Nat.mod_lt _ (by norm_num)), limbsVal_drop, Nat.div_div_eq_div_mul, ← Nat.pow_add, Nat.div_add_mod]; rfl

theorem compareTop_eq (u v : List Word) (hl : u.length = v.length) :
    compareTop u v = compare (limbsVal u.reverse) (limbsVal v.reverse) := by
  induction u generalizing v with
  | nil => rw [List.length_eq_zero_iff.1 hl.symm]; simp [compareTop, limbsVal]
  | cons x xs ih =>
    cases v with
    | nil => simp at hl
    | cons y ys =>
      have hl' : xs.length = ys.length := by simpa using hl
      rw [compareTop, List.reverse_cons, List.reverse_cons, limbsVal_append, limbsVal_append, ih _ hl']
      simp only [List.length_reverse, limbsVal, hl', Nat.mul_zero, Nat.add_zero]
      have h1 := limbsVal_lt xs.reverse
      have h2 := limbsVal_lt ys.reverse
      rw [List.length_reverse, hl'] at h1
      rw [List.length_reverse] at h2
      generalize 2 ^ (64 * ys.length) = P at *
      generalize limbsVal xs.reverse = A at *
      generalize limbsVal ys.reverse = B at *
      simp only [BitVec.lt_def]
      split
      · rename_i h; symm; rw [compare_gt_iff_gt]; nlinarith
      · split
        · symm; rw [compare_lt_iff_lt]; nlinarith
        · have : x.toNat = y.toNat := by omega
          rw [this]
          rcases Nat.lt_trichotomy A B with h | h | h
          · rw [compare_lt_iff_lt.2 h, compare_lt_iff_lt.2 (by omega)]
          · rw [h]; simp
          · rw [compare_gt_iff_gt.2 h, compare_gt_iff_gt.2 (by omega)]

theorem compareV_eq {a b : Value} (ha : a.valid = true) (hb : b.valid = true) : compareV a b = compare a.val b.val := by
  unfold compareV
  split
  · symm; rw [compare_gt_iff_gt]
    by_contra hc
    have := len_le_of_val_le ha (Nat.le_of_not_lt hc); omega
  · split
    · symm; rw [compare_lt_iff_lt]
      by_contra hc
      have := len_le_of_val_le hb (Nat.le_of_not_lt hc); omega
    · rw [compareTop_eq _ _ (by simp [limbs_length]; omega)]; simp [Value.val]

theorem ofWord_val (w : Word) : (Value.ofWord w).val = w.toNat := by simp [Value.ofWord, Value.val, Value.limbs, limbsVal]
theorem ofWord_valid (w : Word) : (Value.ofWord w).valid = true := rfl

theorem compareWord_eq {a : Value} (ha : a.valid = true) (w : Word) : compareWord a w = compare a.val w.toNat := by
  unfold compareWord
  split
  · rename_i h
    have h1 := val_ge ha h
    have hw := w.isLt
    have : 2 ^ 64 ≤ 2 ^ (64 * (a.len - 1)) := Nat.pow_le_pow_right (by norm_num) (by omega)
    symm; rw [compare_gt_iff_gt]; omega
  · rename_i h
    have : a.val = a.low.toNat := by
      obtain ⟨low, high⟩ := a
      have : high = [] := by simpa [Value.len] using h
      simp [this, Value.val, Value.limbs, limbsVal]
    rw [this]
    simp only [BitVec.lt_def]
    split
    · symm; rwa [compare_gt_iff_gt]
    · split
      · symm; rwa [compare_lt_iff_lt]
      · symm; rw [compare_eq_iff_eq]; omega

theorem bitLen_eq {a : Value} (ha : a.valid = true) : bitLen a = if a.val = 0 then 0 else Nat.log2 a.val + 1 := by
  split
  · rename_i h; rw [(eq_zero_iff ha).2 h]; rfl
  · rename_i h
    obtain ⟨lo, hlo, he⟩ := val_eq_top a
    have ht : a.top ≠ 0#64 := by
      by_cases hl : 1 < a.len
      · exact top_ne_zero ha hl
      · have : a.len = 1 := by have := len_pos a; omega
        intro h0; rw [this, h0] at he; rw [this] at hlo; simp at he hlo; omega
    have ht' := toNat_pos_of_ne ht
    have hlog : Nat.log2 a.top.toNat < 64 := (Nat.log2_lt (by omega)).2 a.top.isLt
    have h1 := Nat.log2_self_le (n := a.top.toNat) (by omega)
    have h2 : a.top.toNat < 2 ^ (Nat.log2 a.top.toNat + 1) := Nat.lt_log2_self
    have : Nat.log2 a.val = 64 * (a.len - 1) + Nat.log2 a.top.toNat := by
      rw [Nat.log2_eq_iff h]
      rw [Nat.pow_add, Nat.add_assoc, Nat.pow_add _ (64 * (a.len -1)), he]
      generalize 2 ^ (64 * (a.len - 1)) = P at *
      generalize 2 ^ (a.top.toNat.log2 + 1) = Q at *
      constructor
      · nlinarith
      · have : P * (a.top.toNat + 1) ≤ P * Q := Nat.mul_le_mul_left _ (by omega)
        rw [Nat.mul_add] at this; omega
    rw [this, bitLen, clz64, if_neg ht]
    omega

theorem parityV_eq (a : Value) : parityV a = decide (a.val % 2 = 1) := by
  have : a.val = a.low.toNat + 2 ^ 64 * limbsVal a.high := rfl
  rw [parityV, this]
  simp [BitVec.getLsbD, Nat.testBit_zero]; omega

theorem decLimbs_val (l : List Word) (h : limbsVal l ≠ 0) : limbsVal (decLimbs l) + 1 = limbsVal l := by
  induction l with
  | nil => simp [limbsVal] at h
  | cons x xs ih =>
    rw [decLimbs]
    split
    · rename_i h0
      rw [h0] at h ⊢
      simp [limbsVal] at h ⊢
      have := ih h
      have ho : ones.toNat = 2^64 - 1 := by decide
      omega
    · rename_i h0
      have := toNat_pos_of_ne h0
      have hx := x.isLt
      simp only [limbsVal]
      have : (x - 1#64).toNat = x.toNat - 1 := by
        rw [BitVec.toNat_sub]; simp; omega
      omega

theorem decV_valid (a : Value) : (decV a).valid = true := norm_valid _

theorem decV_val {a : Value} (h : a.val ≠ 0) : (decV a).val = a.val - 1 := by
  have := decLimbs_val a.limbs h
  rw [decV, norm_val]; unfold Value.val; omega

theorem orWordV_valid {a : Value} (h : a.valid = true) (w : Word) : (orWordV a w).valid = true := by
  obtain ⟨low, high⟩ := a
  cases high with
  | nil => rfl
  | cons y ys => simp only [orWordV, Value.valid, Value.top, List.getLastD_cons] at h ⊢; exact h

theorem orWordV_val (a : Value) (w : Word) :
    (orWordV a w).val = a.val - a.low.toNat + (a.low ||| w).toNat := by
  simp [orWordV, Value.val, Value.limbs, limbsVal]; omega

theorem orWordV_len (a : Value) (w : Word) : (orWordV a w).len = a.len := rfl

end Sys2Proof.Machine
end

