-- ==== Sys2Proof/Laws/Composite.lean ====
section
/-! SUPPORT. What the composite functions compute, as numbers: REM's loop, square-and-multiply, RandValue, the
trailing-zero count, one Miller-Rabin round. -/
namespace Sys2Proof.Machine

theorem remLoop_spec {m : Value} (n : Nat) (r : Value) (hr : r.valid = true)
    (h : r.val < m.val * 2 ^ n) : (remLoop m n r).valid = true ∧ (remLoop m n r).val = r.val % m.val := by
  induction n generalizing r with
  | zero =>
    have h : r.val < m.val := by simpa using h
    exact ⟨hr, (Nat.mod_eq_of_lt h).symm⟩
  | succ n ih =>
    rw [remLoop, compareV_eq hr (shlV_valid m n), shlV_val]
    simp only [compare_lt_iff_lt]
    split
    · exact ih _ hr ‹_›
    · rename_i hc
      have hs := subV_val (shlV_valid m n) (a := r) (by rw [shlV_val]; omega)
      rw [shlV_val] at hs
      have := ih _ (subV_valid r (shlV m n)) (by rw [hs]; rw [Nat.pow_succ, ← Nat.mul_assoc] at h; omega)
      refine ⟨this.1, this.2.trans ?_⟩
      rw [hs]
      conv_rhs => rw [← Nat.sub_add_cancel (Nat.le_of_not_lt hc)]
      simp

theorem remV_spec {a m : Value} (ha : a.valid = true) (hm : m.valid = true) (h0 : m.val ≠ 0) :
    (remV a m).valid = true ∧ (remV a m).val = a.val % m.val := by
  unfold remV
  rw [compareV_eq ha hm]
  simp only [compare_lt_iff_lt]
  split
  · exact ⟨ha, (Nat.mod_eq_of_lt ‹_›).symm⟩
  · rename_i hc
    have ha0 : a.val ≠ 0 := by omega
    have hlt : a.val < m.val * 2 ^ (bitLen a - bitLen m + 1) := by
      rw [bitLen_eq ha, bitLen_eq hm, if_neg ha0, if_neg h0]
      have h1 := Nat.log2_self_le h0
      have h2 : a.val < 2 ^ (Nat.log2 a.val + 1) := Nat.lt_log2_self
      have h3 : Nat.log2 m.val ≤ Nat.log2 a.val := by
        rw [Nat.log2_eq_log_two, Nat.log2_eq_log_two]; exact Nat.log_mono_right (by omega)
      calc a.val < 2 ^ (Nat.log2 a.val + 1) := h2
        _ = 2 ^ Nat.log2 m.val * 2 ^ (Nat.log2 a.val + 1 - (Nat.log2 m.val + 1) + 1) := by rw [← Nat.pow_add]; congr 1; omega
        _ ≤ _ := Nat.mul_le_mul_right _ h1
    have := remLoop_spec _ a ha hlt
    exact ⟨norm_valid _, by rw [norm_val]; exact this.2⟩

theorem modPowLoop_spec {m : Value} (hm : m.valid = true) (h0 : m.val ≠ 0) (n : Nat) (r b e : Value)
    (hr : r.valid = true) (hb : b.valid = true) (he : e.valid = true) (hn : e.val < 2 ^ n) :
    (modPowLoop m n r b e).valid = true ∧
      (modPowLoop m n r b e).val = if e.val = 0 then r.val else r.val * b.val ^ e.val % m.val := by
  induction n generalizing r b e with
  | zero => rw [if_pos (by simpa using hn)]; exact ⟨hr, rfl⟩
  | succ n ih =>
    rw [modPowLoop]
    simp only [eq_zero_iff he]
    split
    · exact ⟨hr, rfl⟩
    · rename_i hz
      have hbb := remV_spec (mulV_valid b b) hm h0
      have hrb := remV_spec (mulV_valid r b) hm h0
      have hr' : (if parityV e = true then remV (mulV r b) m else r).valid = true := by split; exacts [hrb.1, hr]
      have := ih _ _ _ hr' hbb.1 (shrV_valid e 1) (by rw [shrV_val]; rw [Nat.pow_succ] at hn; omega)
      refine ⟨this.1, this.2.trans ?_⟩
      rw [shrV_val, hbb.2, mulV_val, parityV_eq]
      simp only [decide_eq_true_eq, pow_one]
      by_cases hp : e.val % 2 = 1
      · rw [if_pos hp, hrb.2, mulV_val]
        have hdec : e.val = 2 * (e.val / 2) + 1 := by omega
        by_cases h1 : e.val / 2 = 0
        · rw [if_pos h1]; rw [h1] at hdec; rw [hdec]; simp
        · rw [if_neg h1]
          conv_rhs => rw [hdec, Nat.pow_succ, Nat.pow_mul]
          rw [Nat.mul_mod, Nat.mod_mod, ← Nat.pow_mod, ← Nat.mul_mod, pow_two]
          congr 1; ring
      · rw [if_neg hp]
        have hdec : e.val = 2 * (e.val / 2) := by omega
        rw [if_neg (by omega)]
        conv_rhs => rw [hdec, Nat.pow_mul]
        rw [Nat.mul_mod, ← Nat.pow_mod, ← Nat.mul_mod, pow_two]

theorem lt_two_pow_bitLen {a : Value} (ha : a.valid = true) : a.val < 2 ^ bitLen a := by
  rw [bitLen_eq ha]; split
  · omega
  · exact Nat.lt_log2_self

theorem modPow_spec {b e m : Value} (hb : b.valid = true) (he : e.valid = true) (hm : m.valid = true) (h0 : m.val ≠ 0) :
    (modPow b e m).valid = true ∧ (modPow b e m).val = if e.val = 0 then 1 else b.val ^ e.val % m.val := by
  have hrb := remV_spec hb hm h0
  have := modPowLoop_spec hm h0 (bitLen e) (Value.ofWord 1#64) (remV b m) e rfl hrb.1 he (lt_two_pow_bitLen he)
  refine ⟨this.1, this.2.trans ?_⟩
  rw [ofWord_val, hrb.2]
  simp [← Nat.pow_mod]

theorem limbsVal_testBit (l : List Word) (i : Nat) :
    (limbsVal l).testBit i = (l.getD (i / 64) 0#64).getLsbD (i % 64) := by
  induction l generalizing i with
  | nil => simp [limbsVal]
  | cons x xs ih =>
    rw [limbsVal, Nat.add_comm, Nat.testBit_two_pow_mul_add _ x.isLt]
    split
    · rename_i h
      rw [Nat.div_eq_of_lt h, Nat.mod_eq_of_lt h]; rfl
    · rename_i h
      rw [ih]
      have h1 : i / 64 = (i - 64) / 64 + 1 := by omega
      have h2 : (i - 64) % 64 = i % 64 := by omega
      rw [h1, h2]; rfl

theorem drawMany_length (n : Nat) (r : Rbs) : (Rbs.drawMany n r).1.length = n := by
  induction n generalizing r with
  | zero => rfl
  | succ n ih => simp [Rbs.drawMany, ih]

theorem shapeLimbs_getD (k : Nat) (l : List Word) (j : Nat) (hj : j < l.length) :
    (shapeLimbs k l).getD j 0#64 = if j + 1 = l.length then shapeTop k (l.getD j 0#64) else l.getD j 0#64 := by
  induction l generalizing j with
  | nil => simp at hj
  | cons w ws ih =>
    cases ws with
    | nil => simp at hj; subst hj; simp [shapeLimbs]
    | cons x xs =>
      rw [shapeLimbs]
      cases j with
      | zero => simp
      | succ j =>
        have := ih j (by simpa using hj)
        simp only [List.getD_cons_succ, List.length_cons] at this ⊢
        rw [this]; simp

theorem shapeLimbs_length (k : Nat) (l : List Word) : (shapeLimbs k l).length = l.length := by
  induction l with
  | nil => rfl
  | cons w ws ih =>
    cases ws with
    | nil => rfl
    | cons x xs => rw [shapeLimbs]; simp [ih]

theorem shapeTop_getLsbD (k : Nat) (hk : 0 < k) (w : Word) (t : Nat) (ht : t < 64) :
    (shapeTop k w).getLsbD t = if t < (k - 1) % 64 then w.getLsbD t else decide (t = (k - 1) % 64) := by
  have hor : ∀ x : Word, (x ||| BitVec.ofNat 64 (2 ^ ((k - 1) % 64))).getLsbD t = (x.getLsbD t || decide (t = (k-1) % 64)) := by
    intro x
    rw [BitVec.getLsbD_or, BitVec.getLsbD_ofNat, Nat.testBit_two_pow]
    simp [ht, eq_comm]
  rw [shapeTop, hor]
  by_cases h0 : k % 64 = 0
  · rw [if_pos h0]
    have : (k - 1) % 64 = 63 := by omega
    rw [this]
    split
    · rw [decide_eq_false (by omega)]; simp
    · rw [decide_eq_true (by omega)]; simp
  · rw [if_neg h0, BitVec.getLsbD_and, BitVec.getLsbD_ofNat, Nat.testBit_two_pow_sub_one]
    have : (k - 1) % 64 + 1 = k % 64 := by omega
    by_cases h1 : t < (k - 1) % 64
    · rw [if_pos h1, decide_eq_true ht, decide_eq_true (show t < k % 64 by omega), decide_eq_false (by omega)]; simp
    · rw [if_neg h1]
      by_cases h2 : t = (k - 1) % 64
      · rw [decide_eq_true h2]; simp
      · rw [decide_eq_false (show ¬ t < k % 64 by omega), decide_eq_false h2]; simp

theorem randValue_valid (k : Nat) (r : Rbs) : (randValue k r).1.valid = true := by
  unfold randValue; split
  · rfl
  · exact norm_valid _

theorem randValue_testBit {k : Nat} (hk : 0 < k) (r : Rbs) (i : Nat) :
    (randValue k r).1.val.testBit i = if i < k - 1 then ((Rbs.drawMany ((k + 63) / 64) r).1.getD (i / 64) 0#64).getLsbD (i % 64) else decide (i = k - 1) := by
  rw [randValue, if_neg (by omega)]
  simp only [norm_val]
  rw [limbsVal_testBit]
  generalize hl : (Rbs.drawMany ((k + 63) / 64) r).1 = l
  have hlen : l.length = (k + 63) / 64 := by rw [← hl, drawMany_length]
  have ht : i % 64 < 64 := Nat.mod_lt _ (by norm_num)
  by_cases hj : i / 64 < l.length
  · rw [shapeLimbs_getD _ _ _ hj]
    by_cases hlast : i / 64 + 1 = l.length
    · rw [if_pos hlast, shapeTop_getLsbD k hk _ _ ht]
      have : (i % 64 < (k - 1) % 64) ↔ i < k - 1 := by omega
      have h2 : (i % 64 = (k - 1) % 64) ↔ i = k - 1 := by omega
      simp only [this, h2]
    · rw [if_neg hlast, if_pos (by omega)]
  · rw [List.getD_eq_default _ _ (by rw [shapeLimbs_length]; omega), if_neg (by omega), decide_eq_false (by omega)]; simp

theorem randValue_bounds {k : Nat} (hk : 0 < k) (r : Rbs) :
    2 ^ (k - 1) ≤ (randValue k r).1.val ∧ (randValue k r).1.val < 2 ^ k := by
  constructor
  · apply Nat.ge_two_pow_of_testBit
    rw [randValue_testBit hk]; simp
  · apply Nat.lt_pow_two_of_testBit
    intro i hi
    rw [randValue_testBit hk, if_neg (by omega), decide_eq_false (by omega)]

theorem mrSquarings_spec {n nm1 : Value} (hn : n.valid = true) (hn0 : n.val ≠ 0) (hnm : nm1.valid = true) (j : Nat) (x : Value) (hx : x.valid = true) :
    mrSquarings n nm1 j x = true ↔ ∃ i, 1 ≤ i ∧ i ≤ j ∧ x.val ^ (2 ^ i) % n.val = nm1.val := by
  induction j generalizing x with
  | zero => simp [mrSquarings]
  | succ j ih =>
    have hr := remV_spec (mulV_valid x x) hn hn0
    rw [mulV_val] at hr
    rw [mrSquarings, compareV_eq hr.1 hnm]
    simp only [compare_eq_iff_eq]
    split
    · rename_i h
      simp only [true_iff]
      refine ⟨1, le_refl _, by omega, ?_⟩
      rw [hr.2] at h
      rwa [pow_one, pow_two]
    · rename_i h
      rw [ih _ hr.1, hr.2]
      have e : ∀ i, (x.val * x.val % n.val) ^ 2 ^ i % n.val = x.val ^ 2 ^ (i + 1) % n.val := by
        intro i; rw [← Nat.pow_mod, ← pow_two, ← Nat.pow_mul, Nat.pow_succ' (n := i)]
      simp only [e]
      rw [hr.2] at h
      constructor
      · rintro ⟨i, h1, h2, h3⟩; exact ⟨i + 1, by omega, by omega, h3⟩
      · rintro ⟨i, h1, h2, h3⟩
        rcases Nat.lt_or_ge 1 i with hi | hi
        · exact ⟨i - 1, by omega, by omega, by rwa [Nat.sub_add_cancel h1]⟩
        · have : i = 1 := by omega
          subst this; rw [pow_one, pow_two] at h3; exact absurd h3 h

theorem ctz64_spec {x : Word} (h : x ≠ 0#64) : ctz64 x < 64 ∧ x.toNat.testBit (ctz64 x) = true ∧ ∀ t < ctz64 x, x.toNat.testBit t = false := by
  unfold ctz64
  have hx : ∃ t < 64, x.getLsbD t = true := by
    by_contra hc
    push Not at hc
    apply h
    apply BitVec.eq_of_getLsbD_eq
    intro i hi
    simpa using hc i hi
  cases hf : (List.range 64).find? fun t => x.getLsbD t with
  | none =>
    obtain ⟨t, ht, hb⟩ := hx
    have := List.find?_eq_none.1 hf t (by simpa using ht)
    simp [hb] at this
  | some t =>
    rw [List.find?_range_eq_some] at hf
    obtain ⟨h1, h2, h3⟩ := hf
    refine ⟨by simpa using h2, h1, ?_⟩
    intro u hu
    have := h3 u hu
    show x.getLsbD u = false
    simpa using this

theorem tzScan_spec (l : List Word) (i : Nat) (h : limbsVal l ≠ 0) :
    ∃ t d, tzScan i l = 64 * i + t ∧ limbsVal l = d * 2 ^ t ∧ d % 2 = 1 := by
  induction l generalizing i with
  | nil => simp [limbsVal] at h
  | cons x xs ih =>
    rw [tzScan]
    split
    · rename_i hx
      obtain ⟨h1, h2, h3⟩ := ctz64_spec hx
      have hd : 2 ^ ctz64 x ∣ x.toNat := by
        rw [Nat.dvd_iff_mod_eq_zero]
        apply Nat.eq_of_testBit_eq
        intro j
        rw [Nat.testBit_mod_two_pow, Nat.zero_testBit]
        by_cases hj : j < ctz64 x
        · simp [h3 j hj]
        · simp [hj]
      obtain ⟨c, hc⟩ := hd
      refine ⟨ctz64 x, c + 2 ^ (64 - ctz64 x) * limbsVal xs, by ring, ?_, ?_⟩
      · rw [limbsVal, hc]
        have : (2:Nat) ^ 64 = 2 ^ ctz64 x * 2 ^ (64 - ctz64 x) := by rw [← Nat.pow_add]; congr 1; omega
        rw [this]; ring
      · have : c % 2 = 1 := by
          rw [hc, Nat.mul_comm, Nat.testBit_mul_two_pow] at h2
          simp at h2
          simpa using h2
        have e : (2:Nat) ^ (64 - ctz64 x) = 2 * 2 ^ (63 - ctz64 x) := by rw [← Nat.pow_succ']; congr 1; omega
        rw [e, Nat.mul_assoc]; omega
    · rename_i hx
      have hx : x = 0#64 := by simpa using hx
      rw [hx, limbsVal] at h
      obtain ⟨t, d, h1, h2, h3⟩ := ih (i + 1) (by simpa using h)
      refine ⟨64 + t, d, by rw [h1]; ring, ?_, h3⟩
      rw [hx, limbsVal, h2, Nat.pow_add]; simp; ring

theorem tzCount_spec (a : Value) (h : a.val ≠ 0) : ∃ d, a.val = d * 2 ^ tzCount a ∧ d % 2 = 1 := by
  obtain ⟨t, d, h1, h2, h3⟩ := tzScan_spec a.limbs 0 h
  exact ⟨d, by rw [tzCount, h1]; simpa [Value.val] using h2, h3⟩

theorem odd_decomp_unique {d s d' s' : Nat} (h : d * 2 ^ s = d' * 2 ^ s') (hd : d % 2 = 1) (hd' : d' % 2 = 1) : d = d' ∧ s = s' := by
  have key : ∀ {d s d' s' : Nat}, d * 2 ^ s = d' * 2 ^ s' → d % 2 = 1 → d' % 2 = 1 → s ≤ s' → s = s' := by
    intro d s d' s' h hd hd' hle
    by_contra hne
    obtain ⟨u, rfl⟩ := Nat.exists_eq_add_of_lt (Nat.lt_of_le_of_ne hle hne)
    have h' : d * 2 ^ s = (d' * 2 ^ u * 2) * 2 ^ s := by rw [h]; ring
    have := Nat.eq_of_mul_eq_mul_right (by positivity) h'
    omega
  have hs : s = s' := by
    rcases Nat.le_total s s' with hl | hl
    · exact key h hd hd' hl
    · exact (key h.symm hd' hd hl).symm
  subst hs
  exact ⟨Nat.eq_of_mul_eq_mul_right (by positivity) h, rfl⟩

theorem mrRound_spec {n nm1 d a : Value} {s : Nat} (hn : n.valid = true) (hn5 : 5 ≤ n.val) (hnm : nm1.valid = true) (hnmv : nm1.val = n.val - 1)
    (hd : d.valid = true) (hodd : d.val % 2 = 1) (hds : nm1.val = d.val * 2 ^ s) (hs : 1 ≤ s) (ha : a.valid = true) :
    mrRound n nm1 d s a = true ↔ StrongRound n.val a.val := by
  have hmp := modPow_spec ha hd hn (by omega)
  rw [if_neg (by omega)] at hmp
  unfold mrRound
  rw [compareWord_eq hmp.1, compareV_eq hmp.1 hnm]
  simp only [compare_eq_iff_eq, hmp.2, hnmv]
  have e : ∀ i, (a.val ^ d.val % n.val) ^ 2 ^ i % n.val = a.val ^ (d.val * 2 ^ i) % n.val := by
    intro i; rw [← Nat.pow_mod, ← Nat.pow_mul]
  have hstr : StrongRound n.val a.val ↔ (a.val ^ d.val % n.val = 1 ∨ ∃ j < s, a.val ^ (d.val * 2 ^ j) % n.val = n.val - 1) := by
    constructor
    · rintro ⟨d', s', h1, h2, h3⟩
      obtain ⟨rfl, rfl⟩ := odd_decomp_unique (show d.val * 2 ^ s = d' * 2 ^ s' by omega) hodd h2
      exact h3
    · intro h; exact ⟨_, _, by rw [← hnmv]; exact hds, hodd, h⟩
  rw [hstr]
  have h1 : (1#64 : Word).toNat = 1 := rfl
  rw [h1]
  split
  · rename_i h
    simp only [true_iff]
    rcases h with h | h
    · exact .inl h
    · exact .inr ⟨0, hs, by simpa using h⟩
  · rename_i h
    rw [mrSquarings_spec hn (by omega) hnm _ _ hmp.1]
    simp only [hmp.2, e, hnmv]
    push Not at h
    constructor
    · rintro ⟨i, h1, h2, h3⟩; exact .inr ⟨i, by omega, h3⟩
    · rintro (h1 | ⟨j, h1, h2⟩)
      · exact absurd h1 h.1
      · rcases Nat.eq_zero_or_pos j with rfl | hj
        · simp at h2; exact absurd h2 h.2
        · exact ⟨j, hj, by omega, h2⟩

end Sys2Proof.Machine
end

