-- ==== Sys2Proof/Laws/Encoding.lean ====
section
/-! SUPPORT. The fields of a packed word, and what a legal word satisfies. -/
namespace Sys2Proof

theorem getLsbD_ofNat_reg {w : Nat} (hw : 3 < w) (x : Fin 8) (i : Nat) :
    (BitVec.ofNat w x.val).getLsbD i = (decide (i < 3) && x.val.testBit i) := by
  rw [BitVec.getLsbD_ofNat]
  by_cases h : i < 3
  · simp [h, show i < w by omega]
  · have hx : x.val.testBit i = false :=
      Nat.testBit_lt_two_pow (lt_of_lt_of_le x.isLt (Nat.pow_le_pow_right (n := 2) (by omega) (by omega : 3 ≤ i)))
    simp [h, hx]

/-- Each field of a packed word is the register number put there (30_encoding R81). -/
theorem fields_packWord (op : BitVec 8) (rd ra rb rc : Fin 8) :
    Fields.ofWord (packWord op rd ra rb rc) =
      ⟨op, BitVec.ofNat 4 rd.val, BitVec.ofNat 4 ra.val, BitVec.ofNat 4 rb.val, BitVec.ofNat 4 rc.val, 0#8⟩ := by
  simp only [Fields.ofWord, packWord, Fields.mk.injEq]
  refine ⟨?_, ?_, ?_, ?_, ?_, ?_⟩ <;>
  · apply BitVec.eq_of_getLsbD_eq
    intro i hi
    simp only [BitVec.getLsbD_extractLsb', BitVec.getLsbD_or, BitVec.getLsbD_shiftLeft, BitVec.getLsbD_setWidth,
      getLsbD_ofNat_reg (w := 32) (by omega)]
    try rw [getLsbD_ofNat_reg (by omega)]
    interval_cases i <;> simp

theorem reg_top_clear (x : Fin 8) : (BitVec.ofNat 4 x.val).getLsbD 3 = false := by revert x; decide

theorem regOf_ofNat (x : Fin 8) : regOf (BitVec.ofNat 4 x.val) = x := by revert x; decide

/-- A word is legal when none of the four conditions of 30_encoding R86 is violated. -/
theorem illegal_none_iff (f : Fields) :
    f.illegal? = none ↔ ∃ m, formatOf f.op = some m ∧ f.z = 0#8 ∧ m.unusedOk f = true ∧ m.registersOk f = true := by
  unfold Fields.illegal?
  cases formatOf f.op with
  | none => simp
  | some m =>
    by_cases hz : f.z = 0#8 <;> by_cases hu : m.unusedOk f = true <;> by_cases hr : m.registersOk f = true <;>
      simp [hz, hu, hr]

end Sys2Proof
end

