-- ==== Sys2Proof/Laws/State.lean ====
section
/-! SUPPORT. One lemma per field of State per named update, and what a register reads as after each. -/
namespace Sys2Proof.Machine

/-! writeV -/

@[simp] theorem State.writeV_params (s : State) (r : VReg) (x : Value) : (s.writeV r x).params = s.params := rfl
@[simp] theorem State.writeV_v (s : State) (r : VReg) (x : Value) : (s.writeV r x).v = s.v.set r.val x := rfl
@[simp] theorem State.writeV_s (s : State) (r : VReg) (x : Value) : (s.writeV r x).s = s.s := rfl
@[simp] theorem State.writeV_mode (s : State) (r : VReg) (x : Value) : (s.writeV r x).mode = s.mode := rfl
@[simp] theorem State.writeV_cw (s : State) (r : VReg) (x : Value) : (s.writeV r x).cw = s.cw := rfl
@[simp] theorem State.writeV_faultCode (s : State) (r : VReg) (x : Value) : (s.writeV r x).faultCode = s.faultCode := rfl
@[simp] theorem State.writeV_faultCw (s : State) (r : VReg) (x : Value) : (s.writeV r x).faultCw = s.faultCw := rfl
@[simp] theorem State.writeV_rbs (s : State) (r : VReg) (x : Value) : (s.writeV r x).rbs = s.rbs := rfl
@[simp] theorem State.writeV_free (s : State) (r : VReg) (x : Value) : (s.writeV r x).free = s.free := rfl
@[simp] theorem State.writeV_host (s : State) (r : VReg) (x : Value) : (s.writeV r x).host = s.host := rfl
@[simp] theorem State.writeV_reply (s : State) (r : VReg) (x : Value) : (s.writeV r x).reply = s.reply := rfl
@[simp] theorem State.writeV_readS (s : State) (r : VReg) (x : Value) (q : SReg) : (s.writeV r x).readS q = s.readS q := rfl

/-! writeS -/

@[simp] theorem State.writeS_params (s : State) (r : SReg) (w : Word) : (s.writeS r w).params = s.params := rfl
@[simp] theorem State.writeS_v (s : State) (r : SReg) (w : Word) : (s.writeS r w).v = s.v := rfl
@[simp] theorem State.writeS_s (s : State) (r : SReg) (w : Word) : (s.writeS r w).s = s.s.set r.val w := rfl
@[simp] theorem State.writeS_mode (s : State) (r : SReg) (w : Word) : (s.writeS r w).mode = s.mode := rfl
@[simp] theorem State.writeS_cw (s : State) (r : SReg) (w : Word) : (s.writeS r w).cw = s.cw := rfl
@[simp] theorem State.writeS_faultCode (s : State) (r : SReg) (w : Word) : (s.writeS r w).faultCode = s.faultCode := rfl
@[simp] theorem State.writeS_faultCw (s : State) (r : SReg) (w : Word) : (s.writeS r w).faultCw = s.faultCw := rfl
@[simp] theorem State.writeS_rbs (s : State) (r : SReg) (w : Word) : (s.writeS r w).rbs = s.rbs := rfl
@[simp] theorem State.writeS_free (s : State) (r : SReg) (w : Word) : (s.writeS r w).free = s.free := rfl
@[simp] theorem State.writeS_host (s : State) (r : SReg) (w : Word) : (s.writeS r w).host = s.host := rfl
@[simp] theorem State.writeS_reply (s : State) (r : SReg) (w : Word) : (s.writeS r w).reply = s.reply := rfl
@[simp] theorem State.writeS_readV (s : State) (r : SReg) (w : Word) (q : VReg) : (s.writeS r w).readV q = s.readV q := rfl

/-! setMode -/

@[simp] theorem State.setMode_params (s : State) (m : Mode) : (s.setMode m).params = s.params := rfl
@[simp] theorem State.setMode_v (s : State) (m : Mode) : (s.setMode m).v = s.v := rfl
@[simp] theorem State.setMode_s (s : State) (m : Mode) : (s.setMode m).s = s.s := rfl
@[simp] theorem State.setMode_mode (s : State) (m : Mode) : (s.setMode m).mode = m := rfl
@[simp] theorem State.setMode_cw (s : State) (m : Mode) : (s.setMode m).cw = s.cw := rfl
@[simp] theorem State.setMode_faultCode (s : State) (m : Mode) : (s.setMode m).faultCode = s.faultCode := rfl
@[simp] theorem State.setMode_faultCw (s : State) (m : Mode) : (s.setMode m).faultCw = s.faultCw := rfl
@[simp] theorem State.setMode_rbs (s : State) (m : Mode) : (s.setMode m).rbs = s.rbs := rfl
@[simp] theorem State.setMode_free (s : State) (m : Mode) : (s.setMode m).free = s.free := rfl
@[simp] theorem State.setMode_host (s : State) (m : Mode) : (s.setMode m).host = s.host := rfl
@[simp] theorem State.setMode_reply (s : State) (m : Mode) : (s.setMode m).reply = s.reply := rfl
@[simp] theorem State.setMode_readV (s : State) (m : Mode) (q : VReg) : (s.setMode m).readV q = s.readV q := rfl
@[simp] theorem State.setMode_readS (s : State) (m : Mode) (q : SReg) : (s.setMode m).readS q = s.readS q := rfl

/-! setRbs -/

@[simp] theorem State.setRbs_params (s : State) (r : Rbs) : (s.setRbs r).params = s.params := rfl
@[simp] theorem State.setRbs_v (s : State) (r : Rbs) : (s.setRbs r).v = s.v := rfl
@[simp] theorem State.setRbs_s (s : State) (r : Rbs) : (s.setRbs r).s = s.s := rfl
@[simp] theorem State.setRbs_mode (s : State) (r : Rbs) : (s.setRbs r).mode = s.mode := rfl
@[simp] theorem State.setRbs_cw (s : State) (r : Rbs) : (s.setRbs r).cw = s.cw := rfl
@[simp] theorem State.setRbs_faultCode (s : State) (r : Rbs) : (s.setRbs r).faultCode = s.faultCode := rfl
@[simp] theorem State.setRbs_faultCw (s : State) (r : Rbs) : (s.setRbs r).faultCw = s.faultCw := rfl
@[simp] theorem State.setRbs_rbs (s : State) (r : Rbs) : (s.setRbs r).rbs = r := rfl
@[simp] theorem State.setRbs_free (s : State) (r : Rbs) : (s.setRbs r).free = s.free := rfl
@[simp] theorem State.setRbs_host (s : State) (r : Rbs) : (s.setRbs r).host = s.host := rfl
@[simp] theorem State.setRbs_reply (s : State) (r : Rbs) : (s.setRbs r).reply = s.reply := rfl
@[simp] theorem State.setRbs_readV (s : State) (r : Rbs) (q : VReg) : (s.setRbs r).readV q = s.readV q := rfl
@[simp] theorem State.setRbs_readS (s : State) (r : Rbs) (q : SReg) : (s.setRbs r).readS q = s.readS q := rfl

/-! setHost -/

@[simp] theorem State.setHost_params (s : State) (es : List HostEvent) : (s.setHost es).params = s.params := rfl
@[simp] theorem State.setHost_v (s : State) (es : List HostEvent) : (s.setHost es).v = s.v := rfl
@[simp] theorem State.setHost_s (s : State) (es : List HostEvent) : (s.setHost es).s = s.s := rfl
@[simp] theorem State.setHost_mode (s : State) (es : List HostEvent) : (s.setHost es).mode = s.mode := rfl
@[simp] theorem State.setHost_cw (s : State) (es : List HostEvent) : (s.setHost es).cw = s.cw := rfl
@[simp] theorem State.setHost_faultCode (s : State) (es : List HostEvent) : (s.setHost es).faultCode = s.faultCode := rfl
@[simp] theorem State.setHost_faultCw (s : State) (es : List HostEvent) : (s.setHost es).faultCw = s.faultCw := rfl
@[simp] theorem State.setHost_rbs (s : State) (es : List HostEvent) : (s.setHost es).rbs = s.rbs := rfl
@[simp] theorem State.setHost_free (s : State) (es : List HostEvent) : (s.setHost es).free = s.free := rfl
@[simp] theorem State.setHost_host (s : State) (es : List HostEvent) : (s.setHost es).host = es := rfl
@[simp] theorem State.setHost_reply (s : State) (es : List HostEvent) : (s.setHost es).reply = s.reply := rfl
@[simp] theorem State.setHost_readV (s : State) (es : List HostEvent) (q : VReg) : (s.setHost es).readV q = s.readV q := rfl
@[simp] theorem State.setHost_readS (s : State) (es : List HostEvent) (q : SReg) : (s.setHost es).readS q = s.readS q := rfl

/-! answer -/

@[simp] theorem State.answer_params (s : State) (w : Word) : (s.answer w).params = s.params := rfl
@[simp] theorem State.answer_v (s : State) (w : Word) : (s.answer w).v = s.v := rfl
@[simp] theorem State.answer_s (s : State) (w : Word) : (s.answer w).s = s.s := rfl
@[simp] theorem State.answer_mode (s : State) (w : Word) : (s.answer w).mode = s.mode := rfl
@[simp] theorem State.answer_cw (s : State) (w : Word) : (s.answer w).cw = s.cw := rfl
@[simp] theorem State.answer_faultCode (s : State) (w : Word) : (s.answer w).faultCode = s.faultCode := rfl
@[simp] theorem State.answer_faultCw (s : State) (w : Word) : (s.answer w).faultCw = s.faultCw := rfl
@[simp] theorem State.answer_rbs (s : State) (w : Word) : (s.answer w).rbs = s.rbs := rfl
@[simp] theorem State.answer_free (s : State) (w : Word) : (s.answer w).free = s.free := rfl
@[simp] theorem State.answer_host (s : State) (w : Word) : (s.answer w).host = s.host := rfl
@[simp] theorem State.answer_reply (s : State) (w : Word) : (s.answer w).reply = some w := rfl
@[simp] theorem State.answer_readV (s : State) (w : Word) (q : VReg) : (s.answer w).readV q = s.readV q := rfl
@[simp] theorem State.answer_readS (s : State) (w : Word) (q : SReg) : (s.answer w).readS q = s.readS q := rfl

/-! complete -/

@[simp] theorem State.complete_params (s : State) : (s.complete).params = s.params := rfl
@[simp] theorem State.complete_v (s : State) : (s.complete).v = s.v := rfl
@[simp] theorem State.complete_s (s : State) : (s.complete).s = s.s := rfl
@[simp] theorem State.complete_mode (s : State) : (s.complete).mode = .idle := rfl
@[simp] theorem State.complete_cw (s : State) : (s.complete).cw = s.cw := rfl
@[simp] theorem State.complete_faultCode (s : State) : (s.complete).faultCode = s.faultCode := rfl
@[simp] theorem State.complete_faultCw (s : State) : (s.complete).faultCw = s.faultCw := rfl
@[simp] theorem State.complete_rbs (s : State) : (s.complete).rbs = s.rbs := rfl
@[simp] theorem State.complete_free (s : State) : (s.complete).free = s.free := rfl
@[simp] theorem State.complete_host (s : State) : (s.complete).host = s.host := rfl
@[simp] theorem State.complete_reply (s : State) : (s.complete).reply = s.reply := rfl
@[simp] theorem State.complete_readV (s : State) (q : VReg) : (s.complete).readV q = s.readV q := rfl
@[simp] theorem State.complete_readS (s : State) (q : SReg) : (s.complete).readS q = s.readS q := rfl

/-! start -/

@[simp] theorem State.start_params (s : State) (cw : CmdWord) : (s.start cw).params = s.params := rfl
@[simp] theorem State.start_v (s : State) (cw : CmdWord) : (s.start cw).v = s.v := rfl
@[simp] theorem State.start_s (s : State) (cw : CmdWord) : (s.start cw).s = s.s := rfl
@[simp] theorem State.start_mode (s : State) (cw : CmdWord) : (s.start cw).mode = .busy none := rfl
@[simp] theorem State.start_cw (s : State) (cw : CmdWord) : (s.start cw).cw = cw := rfl
@[simp] theorem State.start_faultCode (s : State) (cw : CmdWord) : (s.start cw).faultCode = s.faultCode := rfl
@[simp] theorem State.start_faultCw (s : State) (cw : CmdWord) : (s.start cw).faultCw = s.faultCw := rfl
@[simp] theorem State.start_rbs (s : State) (cw : CmdWord) : (s.start cw).rbs = s.rbs := rfl
@[simp] theorem State.start_free (s : State) (cw : CmdWord) : (s.start cw).free = s.free := rfl
@[simp] theorem State.start_host (s : State) (cw : CmdWord) : (s.start cw).host = s.host := rfl
@[simp] theorem State.start_reply (s : State) (cw : CmdWord) : (s.start cw).reply = s.reply := rfl
@[simp] theorem State.start_readV (s : State) (cw : CmdWord) (q : VReg) : (s.start cw).readV q = s.readV q := rfl
@[simp] theorem State.start_readS (s : State) (cw : CmdWord) (q : SReg) : (s.start cw).readS q = s.readS q := rfl

/-! raise -/

@[simp] theorem State.raise_params (s : State) (c : FaultCode) : (s.raise c).params = s.params := rfl
@[simp] theorem State.raise_v (s : State) (c : FaultCode) : (s.raise c).v = s.v := rfl
@[simp] theorem State.raise_s (s : State) (c : FaultCode) : (s.raise c).s = s.s := rfl
@[simp] theorem State.raise_mode (s : State) (c : FaultCode) : (s.raise c).mode = .fault := rfl
@[simp] theorem State.raise_cw (s : State) (c : FaultCode) : (s.raise c).cw = s.cw := rfl
@[simp] theorem State.raise_faultCode (s : State) (c : FaultCode) : (s.raise c).faultCode = some c := rfl
@[simp] theorem State.raise_faultCw (s : State) (c : FaultCode) : (s.raise c).faultCw = s.cw := rfl
@[simp] theorem State.raise_rbs (s : State) (c : FaultCode) : (s.raise c).rbs = s.rbs := rfl
@[simp] theorem State.raise_free (s : State) (c : FaultCode) : (s.raise c).free = s.free := rfl
@[simp] theorem State.raise_host (s : State) (c : FaultCode) : (s.raise c).host = s.host := rfl
@[simp] theorem State.raise_reply (s : State) (c : FaultCode) : (s.raise c).reply = s.reply := rfl
@[simp] theorem State.raise_readV (s : State) (c : FaultCode) (q : VReg) : (s.raise c).readV q = s.readV q := rfl
@[simp] theorem State.raise_readS (s : State) (c : FaultCode) (q : SReg) : (s.raise c).readS q = s.readS q := rfl

/-! resetCore -/

@[simp] theorem State.resetCore_params (s : State) : (s.resetCore).params = s.params := rfl
@[simp] theorem State.resetCore_v (s : State) : (s.resetCore).v = Vector.replicate 8 Value.zero := rfl
@[simp] theorem State.resetCore_s (s : State) : (s.resetCore).s = Vector.replicate 8 0 := rfl
@[simp] theorem State.resetCore_mode (s : State) : (s.resetCore).mode = .idle := rfl
@[simp] theorem State.resetCore_cw (s : State) : (s.resetCore).cw = 0 := rfl
@[simp] theorem State.resetCore_faultCode (s : State) : (s.resetCore).faultCode = none := rfl
@[simp] theorem State.resetCore_faultCw (s : State) : (s.resetCore).faultCw = 0 := rfl
@[simp] theorem State.resetCore_rbs (s : State) : (s.resetCore).rbs = s.rbs := rfl
@[simp] theorem State.resetCore_free (s : State) : (s.resetCore).free = s.free := rfl
@[simp] theorem State.resetCore_host (s : State) : (s.resetCore).host = s.host := rfl
@[simp] theorem State.resetCore_reply (s : State) : (s.resetCore).reply = s.reply := rfl

/-! answerFree -/

@[simp] theorem State.answerFree_params (s : State) : (s.answerFree).params = s.params := rfl
@[simp] theorem State.answerFree_v (s : State) : (s.answerFree).v = s.v := rfl
@[simp] theorem State.answerFree_s (s : State) : (s.answerFree).s = s.s := rfl
@[simp] theorem State.answerFree_mode (s : State) : (s.answerFree).mode = s.mode := rfl
@[simp] theorem State.answerFree_cw (s : State) : (s.answerFree).cw = s.cw := rfl
@[simp] theorem State.answerFree_faultCode (s : State) : (s.answerFree).faultCode = s.faultCode := rfl
@[simp] theorem State.answerFree_faultCw (s : State) : (s.answerFree).faultCw = s.faultCw := rfl
@[simp] theorem State.answerFree_rbs (s : State) : (s.answerFree).rbs = s.rbs := rfl
@[simp] theorem State.answerFree_free (s : State) : (s.answerFree).free = s.free + 1 := rfl
@[simp] theorem State.answerFree_host (s : State) : (s.answerFree).host = s.host := rfl
@[simp] theorem State.answerFree_reply (s : State) : (s.answerFree).reply = some (Config.freeWord s.free) := rfl
@[simp] theorem State.answerFree_readV (s : State) (q : VReg) : (s.answerFree).readV q = s.readV q := rfl
@[simp] theorem State.answerFree_readS (s : State) (q : SReg) : (s.answerFree).readS q = s.readS q := rfl

/-- A value register after a write: the one written holds the value, the others are as before
(10_state R25). -/
@[simp] theorem State.writeV_readV (s : State) (r q : VReg) (x : Value) :
    (s.writeV r x).readV q = if q = r then x else s.readV q := by
  simp only [State.readV, State.writeV, Vector.get_eq_getElem, Vector.getElem_set, Fin.ext_iff, eq_comm]

/-- A scalar register after a write. -/
@[simp] theorem State.writeS_readS (s : State) (r q : SReg) (w : Word) :
    (s.writeS r w).readS q = if q = r then w else s.readS q := by
  simp only [State.readS, State.writeS, Vector.get_eq_getElem, Vector.getElem_set, Fin.ext_iff, eq_comm]

/-- Every value register is zero after reset (10_state R37). -/
@[simp] theorem State.resetCore_readV (s : State) (q : VReg) : s.resetCore.readV q = Value.zero := by
  simp [State.readV, Vector.get_eq_getElem]

/-- Every scalar register is zero after reset (10_state R37). -/
@[simp] theorem State.resetCore_readS (s : State) (q : SReg) : s.resetCore.readS q = 0#64 := by
  simp [State.readS, Vector.get_eq_getElem]

end Sys2Proof.Machine
end

