-- ==== Sys2Proof/Laws/Ops.lean ====
section
/-! SUPPORT. What each shared operation can do, said once: its value where its check holds, and its inversion
("if it answers next t, then one of these"). -/
namespace Sys2Proof.Machine

variable {s t : State} {k : Value → Res} {e : Res} {r : VReg} {q : SReg} {c : FaultCode}

theorem withValue_valid (h : (s.readV r).valid = true) : withValue r s k = k (s.readV r) := if_pos h

theorem withValue_invalid (h : (s.readV r).valid = false) :
    withValue r s k = .next (s.raise .invariant) := by simp [withValue, h]

theorem withValue_next (h : withValue r s k = .next t) :
    (s.readV r).valid = true ∧ k (s.readV r) = .next t ∨
      (s.readV r).valid = false ∧ t = s.raise .invariant := by
  unfold withValue at h
  split at h
  · exact .inl ⟨‹_›, h⟩
  · rename_i hv
    exact .inr ⟨by simpa using hv, (Host.Outcome.next.inj h).symm⟩

@[simp] theorem require_true : require true c s e = e := rfl

@[simp] theorem require_false : require false c s e = .next (s.raise c) := rfl

theorem require_next {ok : Bool} (h : require ok c s e = .next t) :
    ok = true ∧ e = .next t ∨ ok = false ∧ t = s.raise c := by
  cases ok with
  | true => exact .inl ⟨rfl, h⟩
  | false => exact .inr ⟨rfl, (Host.Outcome.next.inj h).symm⟩

theorem finishV_next {x : Value} : finishV r x s = .next t ↔ t = (s.writeV r x).complete :=
  ⟨fun h => (Host.Outcome.next.inj h).symm, fun h => h ▸ rfl⟩

theorem finishS_next {w : Word} : finishS q w s = .next t ↔ t = (s.writeS q w).complete :=
  ⟨fun h => (Host.Outcome.next.inj h).symm, fun h => h ▸ rfl⟩

theorem finishChecked_next {x : Value} (h : finishChecked r x s = .next t) :
    s.overLimbs x.len = false ∧ t = (s.writeV r x).complete ∨
      s.overLimbs x.len = true ∧ t = s.raise .capacity := by
  rcases require_next h with ⟨ho, h⟩ | ⟨ho, h⟩
  · exact .inl ⟨by simpa using ho, finishV_next.1 h⟩
  · exact .inr ⟨by simpa using ho, h⟩

theorem finishCount_next {n : Nat} (h : finishCount q n s = .next t) :
    n < 2 ^ 64 ∧ t = (s.writeS q (BitVec.ofNat 64 n)).complete := by
  unfold finishCount at h
  split at h
  · exact ⟨‹_›, finishS_next.1 h⟩
  · cases h

/-- One iteration of GENPRIME answers next in exactly two ways (46_prime_generator R223). -/
theorem genStep_next {bits : Word} (h : genStep r bits s = .next t) :
    s.params.spt.contains 0#64 = false ∧
      ((∃ x, (genIter bits.toNat s.params.spt s.rbs).1 = some x ∧
          t = ((s.setRbs (genIter bits.toNat s.params.spt s.rbs).2).writeV r x).complete) ∨
        (genIter bits.toNat s.params.spt s.rbs).1 = none ∧
          t = (s.setRbs (genIter bits.toNat s.params.spt s.rbs).2).setMode (.busy (some bits))) := by
  unfold genStep at h
  split at h
  · cases h
  · rename_i hz
    refine ⟨by simpa using hz, ?_⟩
    split at h
    · exact .inl ⟨_, ‹_›, finishV_next.1 h⟩
    · exact .inr ⟨‹_›, (Host.Outcome.next.inj h).symm⟩

end Sys2Proof.Machine
end

