-- ==== Sys2Proof/Laws/PerInstr.lean ====
section
/-! SUPPORT. A family of statements made per command: the word of every command is legal (30_encoding R86). -/
namespace Sys2Proof.Laws.LegalWord

/-- The command's word violates none of the four conditions of 30_encoding R86. -/
def Statement (i : Instr) : Prop := wellFormed (encode i) = true

/-- A packed word is legal when its opcode has a format whose unused fields are packed as zero. -/
theorem legal_packWord {op : BitVec 8} {m : Format} (rd ra rb rc : Fin 8) (h : formatOf op = some m)
    (hd : m.rd = .unused → rd = 0) (ha : m.ra = .unused → ra = 0) (hb : m.rb = .unused → rb = 0)
    (hc : m.rc = .unused → rc = 0) : wellFormed (packWord op rd ra rb rc) = true := by
  have hu : ∀ (c : FieldClass) (x : Fin 8), (c = .unused → x = 0) → c.unusedOk (BitVec.ofNat 4 x.val) = true := by
    intro c x hx
    cases c with
    | unused => rw [hx rfl]; rfl
    | value => rfl
    | scalar => rfl
  have hr : ∀ (c : FieldClass) (x : Fin 8), c.registerOk (BitVec.ofNat 4 x.val) = true := by
    intro c x
    cases c <;> simp only [FieldClass.registerOk, reg_top_clear, Bool.not_false]
  rw [wellFormed, Option.isNone_iff_eq_none, illegal_none_iff, fields_packWord]
  exact ⟨m, h, rfl, by simp only [Format.unusedOk, hu _ _ hd, hu _ _ ha, hu _ _ hb, hu _ _ hc, Bool.and_self],
    by simp only [Format.registersOk, hr, Bool.and_self]⟩

theorem wrap (rd ra : Fin 8) : Statement (.wrap rd ra) :=
  legal_packWord _ _ _ _ rfl (by simp) (by simp) (by simp) (by simp)

theorem random (rd ra : Fin 8) : Statement (.random rd ra) :=
  legal_packWord _ _ _ _ rfl (by simp) (by simp) (by simp) (by simp)

theorem mov (rd ra : Fin 8) : Statement (.mov rd ra) :=
  legal_packWord _ _ _ _ rfl (by simp) (by simp) (by simp) (by simp)

theorem vchk (ra : Fin 8) : Statement (.vchk ra) :=
  legal_packWord _ _ _ _ rfl (by simp) (by simp) (by simp) (by simp)

theorem vlen (rd ra : Fin 8) : Statement (.vlen rd ra) :=
  legal_packWord _ _ _ _ rfl (by simp) (by simp) (by simp) (by simp)

theorem vgetl (rd ra rb : Fin 8) : Statement (.vgetl rd ra rb) :=
  legal_packWord _ _ _ _ rfl (by simp) (by simp) (by simp) (by simp)

theorem add (rd ra rb : Fin 8) : Statement (.add rd ra rb) :=
  legal_packWord _ _ _ _ rfl (by simp) (by simp) (by simp) (by simp)

theorem sub (rd ra rb : Fin 8) : Statement (.sub rd ra rb) :=
  legal_packWord _ _ _ _ rfl (by simp) (by simp) (by simp) (by simp)

theorem mul (rd ra rb : Fin 8) : Statement (.mul rd ra rb) :=
  legal_packWord _ _ _ _ rfl (by simp) (by simp) (by simp) (by simp)

theorem shl (rd ra rb : Fin 8) : Statement (.shl rd ra rb) :=
  legal_packWord _ _ _ _ rfl (by simp) (by simp) (by simp) (by simp)

theorem shr (rd rb : Fin 8) : Statement (.shr rd rb) :=
  legal_packWord _ _ _ _ rfl (by simp) (by simp) (by simp) (by simp)

theorem rem (rd ra rb : Fin 8) : Statement (.rem rd ra rb) :=
  legal_packWord _ _ _ _ rfl (by simp) (by simp) (by simp) (by simp)

theorem cmp (rd ra rb : Fin 8) : Statement (.cmp rd ra rb) :=
  legal_packWord _ _ _ _ rfl (by simp) (by simp) (by simp) (by simp)

theorem cmpw (rd ra rb : Fin 8) : Statement (.cmpw rd ra rb) :=
  legal_packWord _ _ _ _ rfl (by simp) (by simp) (by simp) (by simp)

theorem bitlen (rd ra : Fin 8) : Statement (.bitlen rd ra) :=
  legal_packWord _ _ _ _ rfl (by simp) (by simp) (by simp) (by simp)

theorem tzcnt (rd ra : Fin 8) : Statement (.tzcnt rd ra) :=
  legal_packWord _ _ _ _ rfl (by simp) (by simp) (by simp) (by simp)

theorem parity (rd ra : Fin 8) : Statement (.parity rd ra) :=
  legal_packWord _ _ _ _ rfl (by simp) (by simp) (by simp) (by simp)

theorem dec (rd : Fin 8) : Statement (.dec rd) :=
  legal_packWord _ _ _ _ rfl (by simp) (by simp) (by simp) (by simp)

theorem orw (rd rb : Fin 8) : Statement (.orw rd rb) :=
  legal_packWord _ _ _ _ rfl (by simp) (by simp) (by simp) (by simp)

theorem modpow (rd ra rb rc : Fin 8) : Statement (.modpow rd ra rb rc) :=
  legal_packWord _ _ _ _ rfl (by simp) (by simp) (by simp) (by simp)

theorem modpoww (rd ra rb rc : Fin 8) : Statement (.modpoww rd ra rb rc) :=
  legal_packWord _ _ _ _ rfl (by simp) (by simp) (by simp) (by simp)

theorem mrtest (rd ra rb : Fin 8) : Statement (.mrtest rd ra rb) :=
  legal_packWord _ _ _ _ rfl (by simp) (by simp) (by simp) (by simp)

theorem genprime (rd ra : Fin 8) : Statement (.genprime rd ra) :=
  legal_packWord _ _ _ _ rfl (by simp) (by simp) (by simp) (by simp)

end Sys2Proof.Laws.LegalWord
end

