-- ==== Sys2Proof/Laws/Step.lean ====
section
/-! SUPPORT. One equation per kind of step: what a step does given the host's next event, and what the CORE does in
its turn. -/
namespace Sys2Proof.Machine

variable {s : State} {es : List HostEvent}

theorem step_nil (h : s.host = []) : step s = coreTurn exec s := by unfold step takeTurn; rw [h]

theorem step_pass (h : s.host = .pass :: es) : step s = coreTurn exec (s.setHost es) := by
  unfold step takeTurn; rw [h]

theorem step_poll (h : s.host = .poll :: es) :
    step s = if s.mode.isBusy then coreTurn exec (s.answer s.statusWord)
      else .next ((s.answer s.statusWord).setHost es) := by unfold step takeTurn; rw [h]

theorem step_powerOn (h : s.host = .powerOn :: es) : step s = .next (s.setHost es).resetCore := by
  unfold step takeTurn; rw [h]

theorem step_read {off width : Nat} (h : s.host = .read off width :: es) :
    step s = hostRead off width (s.setHost es) := by unfold step takeTurn; rw [h]

theorem step_write {off width : Nat} {v : Word} (h : s.host = .write off width v :: es) :
    step s = hostWrite off width v (s.setHost es) := by unfold step takeTurn; rw [h]

theorem coreTurn_busy {b : Option Word} {i : Instr} (h : s.mode = .busy b) (hd : decode s.cw = .ok i) :
    coreTurn exec s = exec i s := by unfold coreTurn; rw [h]; simp only [hd]

theorem coreTurn_illegal {b : Option Word} {why : Illegal} (h : s.mode = .busy b) (hd : decode s.cw = .error why) :
    coreTurn exec s = .next (s.raise .illegalCmd) := by unfold coreTurn; rw [h]; simp only [hd]

theorem coreTurn_rest (h : ∀ b, s.mode ≠ .busy b) : coreTurn exec s = .next s := by
  unfold coreTurn
  split
  · rfl
  · rfl
  · exact absurd ‹_› (h _)

theorem isBusy_false (h : ∀ b, s.mode ≠ .busy b) : s.mode.isBusy = false := by
  rcases hm : s.mode with _ | b | _
  · rfl
  · exact absurd hm (h b)
  · rfl

/-- How a command can leave the machine state: a fault, IDLE, or a GENPRIME that goes on (10_state R38). -/
theorem exec_mode {t : State} {i : Instr} (h : exec i s = .next t) :
    (∃ c, t = s.raise c) ∨ t.mode = .idle ∨ ∃ rd ra b, i = .genprime rd ra ∧ t.mode = .busy (some b) := by
  have fv : ∀ {rd x s'}, finishV rd x s' = .next t → t.mode = .idle := by intro rd x s' h; rw [finishV_next] at h; subst h; rfl
  have fs : ∀ {rd x s'}, finishS rd x s' = .next t → t.mode = .idle := by intro rd x s' h; rw [finishS_next] at h; subst h; rfl
  cases i
  case genprime rd ra =>
    rw [exec, execGenprime] at h
    have key : ∀ b, genStep rd b s = .next t → t.mode = .idle ∨ (t.mode = .busy (some b) ∧ t.s = s.s) := by
      intro b hb
      rcases (genStep_next hb).2 with ⟨x, hx, rfl⟩ | ⟨-, rfl⟩
      exacts [.inl rfl, .inr ⟨rfl, rfl⟩]
    split at h
    · rename_i b hb
      rcases key _ h with h | ⟨h1, h2⟩
      · exact .inr (.inl h)
      · exact .inr (.inr ⟨_, _, b, rfl, h1⟩)
    all_goals
      rename_i hb
      rcases require_next h with ⟨ho, h⟩ | ⟨-, rfl⟩
      · rcases key _ h with h | ⟨h1, h2⟩
        · exact .inr (.inl h)
        · exact .inr (.inr ⟨_, _, _, rfl, h1⟩)
      · exact .inl ⟨_, rfl⟩
  all_goals
    simp only [exec, execWrap, execRandom, execMov, execVchk, execVlen, execVgetl, execAdd, execSub, execMul, execShl, execShr, execRem, execCmp, execCmpw, execBitlen, execTzcnt, execParity, execDec, execOrw, execModpow, execModpoww, execMrtest] at h
    repeat' (first
      | (rcases withValue_next h with ⟨-, h⟩ | ⟨-, rfl⟩)
      | (rcases require_next h with ⟨hc, h⟩ | ⟨-, rfl⟩)
      | (rcases finishChecked_next h with ⟨hc, h⟩ | ⟨-, rfl⟩))
  all_goals first
    | exact .inl ⟨_, rfl⟩
    | exact .inr (.inl (fv h))
    | exact .inr (.inl (fs h))
    | (obtain ⟨-, rfl⟩ := finishCount_next h; exact .inr (.inl rfl))
    | (injection h with h; subst h; exact .inr (.inl rfl))

/-- The row of a scalar register (20_memory R51). -/
theorem windowRow_scalar (i : SReg) : windowRow (0x40 + 8 * i.val) 64 = some (.scalar i) := by revert i; decide

theorem windowRow_ctrl {off width : Nat} (h : windowRow off width = some .ctrl) : off = 0x18 ∧ width = 64 := by
  unfold windowRow at h
  repeat (first | (split at h; (first | assumption | cases h)) | cases h)

theorem windowRow_cmd {off width : Nat} (h : windowRow off width = some .cmd) : off = 0x00 ∧ width = 32 := by
  unfold windowRow at h
  repeat (first | (split at h; (first | assumption | cases h)) | cases h)

/-- A run of `n + 1` steps whose first step answers next. -/
theorem run_succ {n : Nat} {t : State} (h : step s = .next t) : core.run (n + 1) s = core.run n t := by
  have hs : core.step s = .next t := h
  simp only [Host.Core.run, hs]

end Sys2Proof.Machine
end

