-- ==== Sys2Proof/Laws/Text.lean ====
section
/-! SUPPORT. Digit strings and the numbers they spell (40_limb_store R112 to R116): chunks, parsing digits, and what the
digits of a rendering spell. -/
namespace Sys2Proof.Machine

theorem spelled_append (b : Nat) (x y : List Nat) : spelled b (x ++ y) = spelled b x + b ^ x.length * spelled b y := by
  induction x with
  | nil => simp [spelled]
  | cons d ds ih => simp only [List.cons_append, spelled, ih, List.length_cons, Nat.pow_succ]; ring

theorem spelled_lt {b : Nat} (ds : List Nat) (h : ∀ d ∈ ds, d < b) : spelled b ds < b ^ ds.length := by
  induction ds with
  | nil => simp [spelled]
  | cons d ds ih =>
    have h1 := h d (by simp)
    have h2 := ih (fun x hx => h x (by simp [hx]))
    simp only [spelled, List.length_cons, Nat.pow_succ]
    nlinarith

theorem chunks_val {b per : Nat} (hb : 0 < b) (hp : 0 < per) (hbp : b ^ per = 2 ^ 64) (n : Nat) (ds : List Nat) (h : ∀ d ∈ ds, d < b) (hn : ds.length ≤ n) :
    limbsVal ((digitChunks per n ds).map fun c => BitVec.ofNat 64 (spelled b c)) = spelled b ds := by
  induction n generalizing ds with
  | zero => rw [List.length_eq_zero_iff.1 (by omega : ds.length = 0)]; rfl
  | succ n ih =>
    cases ds with
    | nil => rfl
    | cons d ds =>
      simp only [digitChunks, List.map_cons, limbsVal]
      rw [ih _ (fun x hx => h x (List.mem_of_mem_drop hx)) (by simp at hn ⊢; omega)]
      have hs := spelled_append b ((d :: ds).take per) ((d :: ds).drop per)
      rw [List.take_append_drop] at hs
      have hlt : spelled b ((d :: ds).take per) < b ^ ((d::ds).take per).length := spelled_lt _ (fun x hx => h x (List.mem_of_mem_take hx))
      have hle : b ^ ((d::ds).take per).length ≤ 2 ^ 64 := by rw [← hbp]; exact Nat.pow_le_pow_right hb (by simp)
      rw [BitVec.toNat_ofNat, Nat.mod_eq_of_lt (by omega), hs]
      by_cases hl : per ≤ (d :: ds).length
      · rw [List.length_take, Nat.min_eq_left hl, hbp]
      · rw [List.drop_eq_nil_of_le (by omega)]; simp [spelled]

theorem digits_none (f : Char → Option Nat) (s : List Char) : s.mapM f = none ↔ ∃ c ∈ s, f c = none := by
  induction s with
  | nil => simp
  | cons c s ih =>
    rw [List.mapM_cons]
    rcases hc : f c with _ | d
    · simp [hc]
    · rcases hs : s.mapM f with _ | ds
      · simp [hc, ← ih, hs]
      · have : ¬ ∃ c ∈ s, f c = none := by rw [← ih, hs]; simp
        simp [hc]; simpa using this

theorem digits_some (f : Char → Option Nat) (s : List Char) (ds) (h : s.mapM f = some ds) : ds = s.map fun c => (f c).getD 0 := by
  induction s generalizing ds with
  | nil => simp at h; simp [h]
  | cons c s ih =>
    rw [List.mapM_cons] at h
    rcases hc : f c with _ | d
    · simp [hc] at h
    · rcases hs : s.mapM f with _ | ds'
      · simp [hc, hs] at h
      · simp [hc, hs] at h; rw [← h, ih _ hs]; simp [hc]

theorem spelled_rev (b : Nat) (l : List Nat) : spelled b l.reverse = l.foldl (fun n d => b * n + d) 0 := by
  have : ∀ l : List Nat, spelled b l = l.foldr (fun d n => b * n + d) 0 := by
    intro l; induction l with
    | nil => rfl
    | cons d l ih => simp [spelled, ih]; ring
  rw [this, List.foldr_reverse]

theorem limbDigits_fold (f : Char → Option Nat) (w cnt : Nat) (hf : ∀ d < 2 ^ w, f (digitChar d) = some d) (x : Word) (n0 : Nat) :
    (limbDigits w cnt x).foldl (fun n c => 2 ^ w * n + (f c).getD 0) n0 = 2 ^ (w * cnt) * n0 + x.toNat % 2 ^ (w * cnt) := by
  induction cnt generalizing n0 with
  | zero => simp [limbDigits, Nat.mod_one]
  | succ c ih =>
    have : limbDigits w (c+1) x = digitChar (x.toNat / 2 ^ (w * c) % 2 ^ w) :: limbDigits w c x := by
      simp [limbDigits, List.range_succ]
    rw [this, List.foldl_cons, ih, hf _ (Nat.mod_lt _ (by positivity)), Option.getD_some]
    rw [show w * (c+1) = w * c + w by ring, Nat.pow_add, Nat.mod_mul]
    ring

theorem render_fold (f : Char → Option Nat) (w cnt : Nat) (hf : ∀ d < 2 ^ w, f (digitChar d) = some d) (hw : w * cnt = 64) (l : List Word) (n0 : Nat) :
    ((l.reverse.flatMap (limbDigits w cnt)).foldl (fun n c => 2 ^ w * n + (f c).getD 0) n0) = 2 ^ (64 * l.length) * n0 + limbsVal l := by
  induction l generalizing n0 with
  | nil => simp [limbsVal]
  | cons x l ih =>
    rw [List.reverse_cons, List.flatMap_append, List.foldl_append, ih]
    simp only [List.flatMap_cons, List.flatMap_nil, List.append_nil]
    rw [limbDigits_fold f w cnt hf, hw, Nat.mod_eq_of_lt x.isLt]
    simp only [limbsVal, List.length_cons]
    rw [show 64 * (l.length + 1) = 64 + 64 * l.length by ring, Nat.pow_add]
    ring

theorem render_len (w cnt : Nat) (l : List Word) : (l.reverse.flatMap (limbDigits w cnt)).length = cnt * l.length := by
  rw [List.length_flatMap, show (fun a => (limbDigits w cnt a).length) = fun _ => cnt by funext; simp [limbDigits]]
  simp [Nat.mul_comm]

theorem render_mem (w cnt : Nat) (l : List Word) (c) (h : c ∈ l.reverse.flatMap (limbDigits w cnt)) : ∃ d < 2 ^ w, c = digitChar d := by
  obtain ⟨x, -, hx⟩ := List.mem_flatMap.1 h
  obtain ⟨i, -, rfl⟩ := List.mem_map.1 hx
  exact ⟨_, Nat.mod_lt _ (by positivity), rfl⟩

end Sys2Proof.Machine
end

