-- ==== Sys2Proof/Tests/Slice0.lean ====
section
/-! SUPPORT. The model's own tests. Expected results are the spec's: 95_test_vectors gives each (its number stands in
the comment), or the worked encodings of 30_encoding R84. Then one witness per statement with hypotheses, clause by
clause: a concrete state and operands that meet them all. -/
namespace Sys2Proof.Tests
open Sys2Proof.Machine

set_option maxRecDepth 20000

/-- A vector by its limbs, limb 0 first. -/
def V (l : List Word) : Value := Value.ofLimbs l

/-- An IDLE state: registers from V0 and S0 up, the words the random-bit source returns, SPT and LMAX. -/
def st (vs : List Value) (ss : List Word) (draws : List Word := []) (spt : List Word := [])
    (lmax : Option Nat := none) : State :=
  { State.resetWith ⟨lmax, spt, 7⟩ with
    rbs := ⟨draws, 0⟩
    v := Vector.ofFn fun i => (vs[i.val]?).getD Value.zero
    s := Vector.ofFn fun i => (ss[i.val]?).getD 0 }

/-- The step that runs a command word. -/
def run (s : State) (cw : Nat) : Res := step (s.withFetchWord 32 cw)

/-- V[r] after a step that ends in IDLE. -/
def vOf (o : Res) (r : VReg) : Option (List Word) :=
  match o with
  | .next t => if t.mode = .idle then some (t.readV r).limbs else none
  | .fault _ | .refused _ => none

/-- S[r] after a step that ends in IDLE. -/
def sOf (o : Res) (r : SReg) : Option Word :=
  match o with
  | .next t => if t.mode = .idle then some (t.readS r) else none
  | .fault _ | .refused _ => none

/-- FAULTINFO after a step that ends in FAULT. -/
def infoOf (o : Res) : Option Word :=
  match o with
  | .next t => if t.mode = .fault then some t.faultInfoWord else none
  | .fault _ | .refused _ => none

/-- The word a host read returned. -/
def replyOf (o : Res) : Option Word :=
  match o with
  | .next t => t.reply
  | .fault _ | .refused _ => none

/-- The machine state after a step. -/
def modeOf (o : Res) : Option Mode :=
  match o with
  | .next t => some t.mode
  | .fault _ | .refused _ => none

/-- How many words a step drew. -/
def drawnOf (o : Res) : Option Nat :=
  match o with
  | .next t => some t.rbs.drawn
  | .fault _ | .refused _ => none

/-! Well-formedness: one ill-formed word per check (D186, D188, D191, D194, D190, D192, D193, D189). -/

theorem test_unassigned_opcode : wellFormed 0x00000000#32 = false ∧
    (Fields.ofWord 0x07000000#32).illegal? = some .unassignedOpcode := by decide

theorem test_nonzero_z : (Fields.ofWord 0x10201001#32).illegal? = some .nonzeroZ ∧
    (Fields.ofWord 0x20012380#32).illegal? = some .nonzeroZ := by decide

theorem test_nonzero_unused_field : (Fields.ofWord 0x14510000#32).illegal? = some .nonzeroUnusedField ∧
    (Fields.ofWord 0x1B100100#32).illegal? = some .nonzeroUnusedField ∧
    (Fields.ofWord 0x04100000#32).illegal? = some .nonzeroUnusedField := by decide

theorem test_register_above_seven : (Fields.ofWord 0x10801000#32).illegal? = some .registerAboveSeven ∧
    wellFormed 0x10777000#32 = true := by decide

/-! Decoding: every command from a word written by R81's layout and R84's opcode and format, `op rd ra rb rc z`. -/

theorem test_decode_limb_store :
    decode 0x01120000#32 = .ok (.wrap 1 2) ∧ decode 0x02210000#32 = .ok (.random 2 1) ∧
    decode 0x03340000#32 = .ok (.mov 3 4) ∧ decode 0x04050000#32 = .ok (.vchk 5) ∧
    decode 0x05670000#32 = .ok (.vlen 6 7) ∧ decode 0x06302000#32 = .ok (.vgetl 3 0 2) := by decide

theorem test_decode_arithmetic :
    decode 0x10123000#32 = .ok (.add 1 2 3) ∧ decode 0x11201000#32 = .ok (.sub 2 0 1) ∧
    decode 0x12456000#32 = .ok (.mul 4 5 6) ∧ decode 0x13012000#32 = .ok (.shl 0 1 2) ∧
    decode 0x14502000#32 = .ok (.shr 5 2) ∧ decode 0x15701000#32 = .ok (.rem 7 0 1) := by decide

theorem test_decode_bits :
    decode 0x16341000#32 = .ok (.cmp 3 4 1) ∧ decode 0x17322000#32 = .ok (.cmpw 3 2 2) ∧
    decode 0x18420000#32 = .ok (.bitlen 4 2) ∧ decode 0x19110000#32 = .ok (.tzcnt 1 1) ∧
    decode 0x1A200000#32 = .ok (.parity 2 0) ∧ decode 0x1B100000#32 = .ok (.dec 1) ∧
    decode 0x1C001000#32 = .ok (.orw 0 1) := by decide

theorem test_decode_composite :
    decode 0x20012300#32 = .ok (.modpow 0 1 2 3) ∧ decode 0x21216000#32 = .ok (.modpoww 2 1 6 0) ∧
    decode 0x30504000#32 = .ok (.mrtest 5 0 4) ∧ decode 0x40120000#32 = .ok (.genprime 1 2) := by decide

/-- 30_encoding R84's worked encodings, through the encoder; SQR (P2 line 11). -/
theorem test_encode : encode (.add 1 2 3) = 0x10123000#32 ∧ encode (.modpow 0 1 2 3) = 0x20012300#32 ∧
    encode (.shr 5 2) = 0x14502000#32 ∧ encode (Instr.sqr 4 4) = 0x12444000#32 := by decide

theorem test_table_word : decodeTableWord 32 0x13100000 = some (.shl 1 0 0) ∧ decodeTableWord 32 0 = none := by decide

theorem test_assembly : assembly (.modpoww 0 1 2 3) = "MODPOWW V0, V1, S2, V3" := by decide

/-! Cells (D24, D27, D29, D30). -/

theorem test_adc64 : adc64 ones ones true = (ones, true) := by decide

theorem test_sbb64 : sbb64 0#64 ones true = (0#64, true) := by decide

theorem test_mul64 : mul64 ones ones = (1#64, 0xFFFFFFFFFFFFFFFE#64) ∧ mac64 ones ones ones ones = (ones, ones) := by
  decide

/-! One step per test. -/

/-- D2. -/
theorem test_wrap : vOf (run (st [V [5, 7]] [ones]) 0x01000000) 0 = some [ones] := by decide

/-- D14. -/
theorem test_random : vOf (run (st [] [0, 130] [1, 2, ones]) 0x02210000) 2 = some [1, 2, 3] := by decide

/-- D15. -/
theorem test_random_capacity : infoOf (run (st [] [0, 129] [] [] (some 2)) 0x02210000) = some 0x0221000007#64 := by
  decide

/-- D16. -/
theorem test_mov : vOf (run (st [V [5, 7]] []) 0x03300000) 3 = some [5, 7] := by decide

/-- D18; and the check of R104 on a vector no command produces. -/
theorem test_vchk : vOf (run (st [] []) 0x04000000) 0 = some [0] ∧
    infoOf (run (st [V [5, 0]] []) 0x04000000) = some 0x0400000002#64 := by decide

/-- D19, P1 line 10. -/
theorem test_vlen : sOf (run (st [] []) 0x05000000) 0 = some 1 ∧
    sOf (run (st [V [0], V [0], V [0, 2]] []) 0x05320000) 3 = some 2 := by decide

/-- D21. -/
theorem test_vgetl : sOf (run (st [V [5, 7]] [0, 1]) 0x06101000) 1 = some 7 := by decide

/-- D22. -/
theorem test_vgetl_bad_index : infoOf (run (st [V [5, 7]] [0, 2]) 0x06201000) = some 0x0620100006#64 := by decide

/-- D35. -/
theorem test_add : vOf (run (st [V [1, 2, 3], V [ones]] []) 0x10201000) 2 = some [0, 3, 3] := by decide

/-- D39. -/
theorem test_add_capacity :
    infoOf (run (st [V [ones], V [1]] [] [] [] (some 1)) 0x10201000) = some 0x1020100007#64 := by decide

/-- D43. -/
theorem test_sub : vOf (run (st [V [0, 0, 1], V [1]] []) 0x11201000) 2 = some [ones, ones] := by decide

/-- D47. -/
theorem test_sub_underflow : infoOf (run (st [V [5], V [7]] []) 0x11201000) = some 0x1120100003#64 := by decide

/-- D56. -/
theorem test_mul : vOf (run (st [V [3, 5], V [7, 11]] []) 0x12201000) 2 = some [0x15, 0x44, 0x37] := by decide

/-- D58. -/
theorem test_mul_capacity :
    infoOf (run (st [V [0], V [1, 0xFFFFFFFFFFFFFFFE]] [] [] [] (some 2)) 0x12211000) = some 0x1221100007#64 := by
  decide

/-- D69. -/
theorem test_shl : vOf (run (st [V [ones, ones]] [65]) 0x13100000) 1 =
    some [0, 0xFFFFFFFFFFFFFFFE, ones, 1] := by decide

/-- D70 at its largest count with LMAX 1, D71. -/
theorem test_shl_capacity : vOf (run (st [] [ones] [] [] (some 1)) 0x13100000) 1 = some [0] ∧
    infoOf (run (st [V [1]] [128] [] [] (some 2)) 0x13100000) = some 0x1310000007#64 := by decide

/-- D78. -/
theorem test_shr : vOf (run (st [V [0xF00, 0x0F]] [4]) 0x14000000) 0 = some [0xF0000000000000F0] := by decide

/-- D80, D82. -/
theorem test_shr_two_limbs : vOf (run (st [V [ones, ones]] [65]) 0x14000000) 0 = some [0x7FFFFFFFFFFFFFFF] ∧
    vOf (run (st [V [ones, ones]] [128]) 0x14000000) 0 = some [0] := by decide

/-- D94. -/
theorem test_rem : vOf (run (st [V [7, 0, 0, 1], V [0, 1]] []) 0x15201000) 2 = some [7] := by decide

/-- D95. -/
theorem test_rem_div_zero : infoOf (run (st [V [5]] []) 0x15201000) = some 0x1520100004#64 := by decide

/-- D100, D101. -/
theorem test_cmp : sOf (run (st [V [5, 7], V [6, 7]] []) 0x16001000) 0 = some 2 ∧
    sOf (run (st [V [5, 8], V [6, 7]] []) 0x16001000) 0 = some 1 := by decide

/-- D105, D107. -/
theorem test_cmpw : sOf (run (st [V [5]] [0, 6]) 0x17001000) 0 = some 2 ∧
    sOf (run (st [V [0, 1]] [0, ones]) 0x17001000) 0 = some 1 := by decide

/-- D110, D116. -/
theorem test_bitlen : sOf (run (st [] [9]) 0x18000000) 0 = some 0 ∧
    sOf (run (st [V [0, 0, 8]] []) 0x18000000) 0 = some 132 := by decide

/-- D110, D116. -/
theorem test_tzcnt : sOf (run (st [] []) 0x19000000) 0 = some 64 ∧
    sOf (run (st [V [0, 0, 8]] []) 0x19000000) 0 = some 131 := by decide

/-- D113, D118. -/
theorem test_parity : sOf (run (st [V [ones]] []) 0x1A000000) 0 = some 1 ∧
    sOf (run (st [V [96]] [7]) 0x1A000000) 0 = some 0 := by decide

/-- D124. -/
theorem test_dec : vOf (run (st [V [0, ones]] []) 0x1B000000) 0 = some [ones, 0xFFFFFFFFFFFFFFFE] := by decide

/-- D125. -/
theorem test_dec_zero : infoOf (run (st [] []) 0x1B000000) = some 0x1B00000005#64 := by decide

/-- D128. -/
theorem test_orw : vOf (run (st [V [0xF0, 7]] [0, 0x0F]) 0x1C001000) 0 = some [0xFF, 7] := by decide

/-- D139. -/
theorem test_modpow : vOf (run (st [V [0], V [2], V [64], V [1, 1]] []) 0x20012300) 0 = some [0, 1] := by decide

/-- D132, D133, D144. -/
theorem test_modpow_corners : vOf (run (st [V [0], V [5], V [0], V [1]] []) 0x20012300) 0 = some [1] ∧
    vOf (run (st [V [0], V [5], V [3], V [1]] []) 0x20012300) 0 = some [0] ∧
    infoOf (run (st [V [0], V [5]] []) 0x20012300) = some 0x2001230004#64 := by decide

/-- S10. -/
theorem test_modpoww : vOf (run (st [V [0], V [2], V [0], V [1000]] [0, 0, 10]) 0x21012300) 0 = some [24] := by decide

/-- D157: the last allowed squaring reaches n-1. -/
theorem test_mrtest_accepts : sOf (run (st [V [97]] [9, 1] [5]) 0x30001000) 0 = some 1 := by decide

/-- D164: round 1 passes, round 2 rejects, two draws. -/
theorem test_mrtest_rejects : sOf (run (st [V [561]] [9, 2] [255, 2]) 0x30001000) 0 = some 0 ∧
    drawnOf (run (st [V [561]] [9, 2] [255, 2]) 0x30001000) = some 2 := by decide

/-- D176: found in the first iteration, one draw. -/
theorem test_genprime_found : vOf (run (st [] [2] [0]) 0x40000000) 0 = some [3] ∧
    drawnOf (run (st [] [2] [0]) 0x40000000) = some 1 := by decide

/-- D177: discarded, the CORE stays BUSY; D185. -/
theorem test_genprime_retry :
    modeOf (run (st [] [2] [0] [2, 3]) 0x40000000) = some (.busy (some 2#64)) ∧
    drawnOf (run (st [] [2] [0] [2, 3]) 0x40000000) = some 1 ∧
    infoOf (run (st [] [129] [] [] (some 2)) 0x40000000) = some 0x4000000007#64 := by decide

/-! Host window, fault, reset. -/

/-- D187, D189. -/
theorem test_illegal_word : infoOf (run (st [] []) 0xFFFFFFFF) = some 0xFFFFFFFF01#64 ∧
    infoOf (run (st [] []) 0x10801000) = some 0x1080100001#64 := by decide

/-- The state FAULT after D47, with what the host does next. -/
def faulted (es : List HostEvent) : State :=
  { ((st [V [5], V [7]] [4]).start 0x11201000#32).raise .subUnderflow with host := es }

/-- D198. -/
theorem test_write_scalar : sOf (step { State.reset with host := [HostEvent.sets 1 0x1234#64] }) 1 = some 0x1234 := by
  decide

/-- D199, D197. -/
theorem test_reads_in_idle : replyOf (step { State.reset with host := [.read 0x00 32] }) = some 0 ∧
    replyOf (step { State.reset with host := [.read 0x20 64] }) = some 0 ∧
    replyOf (step { State.reset with host := [.read 0x08 64] }) = some 0 := by decide

/-- D200. -/
theorem test_reads_in_fault : replyOf (step (faulted [.read 0x08 64])) = some 2 ∧
    replyOf (step (faulted [.read 0x10 64])) = some 0x1120100003#64 := by decide

/-- D201, D202. -/
theorem test_writes_in_fault : infoOf (step (faulted [HostEvent.issue 0x10201000#32])) = some 0x1120100003#64 ∧
    infoOf (step (faulted [HostEvent.sets 0 9#64])) = some 0x1120100003#64 := by decide

/-- D203, D204. -/
theorem test_reset : vOf (step (faulted [HostEvent.reset])) 0 = some [0] ∧
    sOf (step (faulted [.powerOn])) 0 = some 0 ∧ infoOf (step (faulted [.write 0x18 64 2#64])) ≠ none := by decide

/-- D205. -/
theorem test_busy : replyOf (step { (st [] []).setMode (.busy (some 2#64)) with host := [.read 0x08 64] }) = some 1 := by
  decide

/-- 20_memory R52: a wrong width is no access. -/
theorem test_wrong_width : step { State.reset with host := [.read 0x08 32] } = .refused .notAWindowRow := rfl

/-! Text (S1, S22; the examples of 40_limb_store R113). -/

theorem test_from_digits : fromBinary ['1', '0', '0', '0'] = some (V [8]) ∧
    fromHex ['1', 'F', 'f', 'F', 'F', 'F', 'F', 'F', 'F', 'F', 'F', 'F', 'F', 'F', 'F', 'F', 'F'] =
      some (V [ones, 1]) ∧ fromHex ['0', 'x'] = none ∧ fromBinary [] = none := by decide

theorem test_to_hex : toHex (V [8]) = List.replicate 15 '0' ++ ['8'] := by decide

/-- 40_limb_store R117, its words encoded by hand: WRAP V0,S0; SHL V0,V0,S1; ORW V0,S0. -/
theorem test_load_sequence : loadSequence 0 [7#64, 5#64] =
    [.sets 0 7#64, .issue 0x01000000#32, .poll, .sets 1 64#64,
      .issue 0x13001000#32, .poll, .sets 0 5#64, .issue 0x1C000000#32, .poll] := by decide

/-- 40_limb_store R117, its words encoded by hand: VLEN S0,V3; VGETL S2,V3,S1. -/
theorem test_read_out_sequence : readOutSequence 3 2 =
    [.issue 0x05030000#32, .poll, .gets 0, .sets 1 1#64, .issue 0x06231000#32, .poll, .gets 2,
      .sets 1 0#64, .issue 0x06231000#32, .poll, .gets 2] ∧
    (continueReadOut 3 (State.reset.answer 1#64)).host =
      [.sets 1 0#64, .issue 0x06231000#32, .poll, .gets 2] := by decide

/-! Witnesses. -/

/-- A state with what the host does next. -/
def withHost (s : State) (es : List HostEvent) : State := s.setHost es

/-- Parameters the spec allows, none of them trivial. -/
def good : Params := ⟨some 3, [2, 3, 5, 7], 7⟩

theorem witness_ParamsWf : ParamsWf good where
  lmaxPos := by intro l h; cases h; decide
  ascending := by decide
  primes := by
    intro w hw
    simp only [good, List.mem_cons, List.not_mem_nil, or_false] at hw
    rcases hw with rfl | rfl | rfl | rfl <;> decide
  complete := by
    intro q hq hle
    have h7 : q ≤ 7 := hle
    interval_cases q
    · exact absurd hq (by decide)
    · exact absurd hq (by decide)
    · exact ⟨2, by decide, rfl⟩
    · exact ⟨3, by decide, rfl⟩
    · exact absurd hq (by decide)
    · exact ⟨5, by decide, rfl⟩
    · exact absurd hq (by decide)
    · exact ⟨7, by decide, rfl⟩

/-- GENPRIME V0, S0 between two iterations, other registers not zero. -/
def generating : State :=
  { st [V [5], V [1, 2, 3]] [8, ones] [0x04] with params := good, mode := .busy (some 8#64), cw := 0x40000000#32 }

theorem generating_inv : generating.Inv where
  params := witness_ParamsWf
  valid := by decide
  within := by decide
  code := by decide
  noWord := by decide
  generating := by intro b h; cases h; exact ⟨0, 0, by decide, by decide, by decide⟩

/-- FAULT after SUB, as `faulted`, under the allowed parameters. -/
theorem faulted_inv : ({ faulted [] with params := good } : State).Inv where
  params := witness_ParamsWf
  valid := by decide
  within := by decide
  code := by decide
  noWord := by decide
  generating := by intro b h; cases h

theorem witness_StepKeepsTheInvariant : generating.Inv ∧ ∃ t, step generating = .next t ∧ t.mode = .busy (some 8#64) :=
  ⟨generating_inv, _, rfl, by decide⟩

theorem witness_InvariantFaultIsUnreachable :
    generating.Inv ∧ generating.faultCode ≠ some .invariant ∧ ∃ t, step generating = .next t :=
  ⟨generating_inv, by decide, _, rfl⟩

/-- IDLE; BUSY in the CORE's turn, under an access and under a reset; FAULT, a step into FAULT, and a step that changes V0. -/
theorem witness_MachineStateTransitions :
    (State.reset.mode = .idle ∧ modeOf (step (withHost State.reset [HostEvent.issue 0x10123000#32])) = some (.busy none)) ∧
    (generating.mode = .busy (some 8#64) ∧ modeOf (step generating) = some (.busy (some 8#64))) ∧
    (modeOf (step (withHost generating [.poll])) = some (.busy (some 8#64)) ∧ HostEvent.poll.resets = false ∧
      HostEvent.poll.accesses = false) ∧
    (modeOf (step (withHost generating [HostEvent.sets 0 9#64])) = some (.busy (some 8#64)) ∧
      (HostEvent.sets 0 9#64).resets = false ∧ (HostEvent.sets 0 9#64).accesses = true) ∧
    (modeOf (step (withHost generating [HostEvent.reset])) = some .idle ∧ HostEvent.reset.resets = true) ∧
    ((faulted [HostEvent.reset]).mode = .fault ∧ modeOf (step (faulted [HostEvent.reset])) = some .idle) ∧
    (((st [] []).start 0x1B000000#32).mode ≠ .fault ∧ modeOf (step ((st [] []).start 0x1B000000#32)) = some .fault) ∧
    vOf (step ((st [V [5]] []).start 0x1B000000#32)) 0 = some [4] := by decide

theorem witness_WordBitCounts : (8#64 : Word) ≠ 0#64 := by decide

theorem witness_ResetMeetsTheInvariant : ParamsWf good := witness_ParamsWf

theorem witness_ParametersNeverChange : ∃ t, step (faulted [.powerOn]) = .next t := ⟨_, rfl⟩

theorem witness_EncodeOfDecode : decode 0x20777700#32 = .ok (.modpow 7 7 7 7) := by decide

/-- Both clauses; one row and one word. -/
theorem witness_DecodeFollowsTheTable : decode 0x1B100000#32 = .ok (.dec 1) ∧
    (⟨"DEC", 0x1B000000#32, 0xFF8FFFFF#32⟩ : Row) ∈ commandTable ∧
    (⟨"DEC", 0x1B000000#32, 0xFF8FFFFF#32⟩ : Row).selects 0x1B100000#32 = true := by decide

/-- The clauses of steps: IDLE taking a word, BUSY on a legal and on an illegal word. -/
theorem witness_IllegalWordsFault :
    ((st [] []).mode = .idle ∧ (withHost (st [] []) [.write 0x00 32 0x10801000#64]).host = .write 0x00 32 0x10801000#64 :: []) ∧
    (((st [] []).start 0x10123000#32).mode = .busy none ∧ ((st [] []).start 0x10123000#32).host = [] ∧
      decode ((st [] []).start 0x10123000#32).cw = .ok (.add 1 2 3)) ∧
    (((st [] []).start 0x10801000#32).mode = .busy none ∧ ((st [] []).start 0x10801000#32).host = [] ∧
      decode ((st [] []).start 0x10801000#32).cw = .error .registerAboveSeven) ∧
    (⟨"ADD", 0x10000000#32, 0xFF888FFF#32⟩ : Row) ∈ commandTable ∧
    (⟨"ADD", 0x10000000#32, 0xFF888FFF#32⟩ : Row).selects 0x10123000#32 = true := by decide

/-- The three forms of the CORE's turn, and `withFetchWord`. -/
theorem witness_StepRunsTheDecodedCommand :
    generating.mode = .busy (some 8#64) ∧ decode generating.cw = .ok (.genprime 0 0) ∧ generating.host = [] ∧
    (withHost generating [.pass]).host = .pass :: [] ∧ (withHost generating [.poll]).host = .poll :: [] ∧
    decode (BitVec.ofNat 32 0x10123000) = .ok (.add 1 2 3) := by decide

theorem witness_CoreRestsUnlessBusy :
    ((∀ b, (faulted []).mode ≠ .busy b) ∧ (faulted []).host = [] ∧ (faulted [.pass]).host = .pass :: [] ∧
      (faulted [.poll]).host = .poll :: []) ∧ ∀ b, State.reset.mode ≠ .busy b :=
  ⟨⟨(by intro b h; cases h), rfl, rfl, rfl⟩, by intro b h; cases h⟩

theorem witness_CommandRegisterAccess :
    ((withHost State.reset [.write 0x00 32 7#64]).host = .write 0x00 32 7#64 :: [] ∧ State.reset.mode = .idle) ∧
    ((faulted [.write 0x00 32 7#64]).host = .write 0x00 32 7#64 :: [] ∧ (faulted []).mode ≠ .idle) ∧
    (withHost generating [.read 0x00 32]).host = .read 0x00 32 :: [] := by decide

theorem witness_ControlRegisterAccess :
    ((faulted [.write 0x18 64 ones]).host = .write 0x18 64 ones :: [] ∧ ones.getLsbD 0 = true) ∧
    ((faulted [.write 0x18 64 2#64]).host = .write 0x18 64 2#64 :: [] ∧ (2#64).getLsbD 0 = false) ∧
    (faulted [.read 0x18 64]).host = .read 0x18 64 :: [] := by decide

theorem witness_ResetReachesTheResetTable : (withHost generating [.powerOn]).host = .powerOn :: [] ∧
    (∃ v : Word, v.getLsbD 0 = true ∧ (withHost generating [.write 0x18 64 1#64]).host = .write 0x18 64 v :: []) :=
  ⟨rfl, 1#64, rfl, rfl⟩

theorem witness_StatusReadsTheMachineState : (withHost generating [.read 0x08 64]).host = .read 0x08 64 :: [] ∧
    (withHost generating [.write 0x08 64 ones]).host = .write 0x08 64 ones :: [] := by decide

/-- A recorded fault; no fault, in a state that meets the invariant. -/
theorem witness_FaultInfoReadsCodeAndWord :
    ((faulted [.read 0x10 64]).host = .read 0x10 64 :: [] ∧ (∀ b, (faulted [.read 0x10 64]).mode ≠ .busy b) ∧
      (faulted [.read 0x10 64]).faultCode = some .subUnderflow) ∧
    ((∀ b, State.reset.mode ≠ .busy b) ∧ State.reset.faultCode = none ∧ State.reset.mode ≠ .fault) ∧
    (faulted [.write 0x10 64 ones]).host = .write 0x10 64 ones :: [] :=
  ⟨⟨rfl, (by intro b h; cases h), rfl⟩, ⟨(by intro b h; cases h), rfl, by decide⟩, rfl⟩

/-- IDLE, BUSY and FAULT, at S7 (offset 0x78, the window's last row). -/
theorem witness_HostAccessByMachineState :
    ((∀ b, (faulted []).mode ≠ .busy b) ∧ (faulted [.read 0x78 64]).host = .read (0x40 + 8 * (7 : SReg).val) 64 :: []) ∧
    (State.reset.mode = .idle ∧
      (withHost State.reset [.write 0x78 64 ones]).host = .write (0x40 + 8 * (7 : SReg).val) 64 ones :: []) ∧
    (generating.mode = .busy (some 8#64) ∧
      (withHost generating [.read 0x78 64]).host = .read (0x40 + 8 * (7 : SReg).val) 64 :: [] ∧
      (withHost generating [.write 0x00 32 0#64]).host = .write 0x00 32 0#64 :: [] ∧
      (withHost generating [.write 0x18 64 1#64]).host = .write 0x18 64 1#64 :: [] ∧ (1#64).getLsbD 0 = true) ∧
    ((faulted []).mode = .fault ∧
      (faulted [.write 0x78 64 ones]).host = .write (0x40 + 8 * (7 : SReg).val) 64 ones :: []) :=
  ⟨⟨(by intro b h; cases h), rfl⟩, ⟨rfl, rfl⟩, ⟨rfl, rfl, rfl, rfl, rfl⟩, rfl, rfl⟩

/-- Where the clauses meet: the reserved row's ends, the last scalar row, and the first offset past the window. -/
theorem witness_OnlyWindowRowsHaveMeaning :
    windowRow 0x20 64 = some .reserved ∧ windowRow 0x38 64 = some .reserved ∧ windowRow 0x3C 64 = none ∧
    windowRow 0x20 32 = none ∧ windowRow 0x24 32 = none ∧
    windowRow 0x78 64 = some (.scalar 7) ∧ windowRow 0x80 64 = none ∧ windowRow 0x04 32 = none ∧
    (withHost State.reset [.read 0x80 64]).host = .read 0x80 64 :: [] ∧
    (withHost State.reset [.write 0x3C 32 1#64]).host = .write 0x3C 32 1#64 :: [] := by decide

/-- A write that does not reset, no event, and a reset. -/
theorem witness_FaultIsFinalUntilReset : (faulted []).mode = .fault ∧
    ((∃ t, step (faulted [HostEvent.sets 0 9#64]) = .next t) ∧
      ∀ e ∈ (faulted [HostEvent.sets 0 9#64]).host.head?, e.resets = false) ∧
    ((∃ t, step (faulted []) = .next t) ∧ ∀ e ∈ (faulted []).host.head?, e.resets = false) ∧
    ((∃ t, step (faulted [HostEvent.reset]) = .next t) ∧
      ∃ e ∈ (faulted [HostEvent.reset]).host.head?, e.resets = true) :=
  ⟨rfl, ⟨⟨_, rfl⟩, (by intro e h; cases h; rfl)⟩, ⟨⟨_, rfl⟩, by intro e h; cases h⟩, ⟨_, rfl⟩, _, rfl, rfl⟩

/-- Every fault a command can raise, and a command without one. -/
theorem witness_FaultsAreExactlyTheSpecs : (st [] [] [] [] (some 1)).lmaxLegal = true ∧
    specFault (.vchk 0) (st [V [5, 0]] []) = some .invariant ∧
    specFault (.sub 0 1 2) (st [V [0], V [5], V [7]] []) = some .subUnderflow ∧
    specFault (.rem 0 1 2) (st [] []) = some .divZero ∧ specFault (.dec 0) (st [] []) = some .decZero ∧
    specFault (.vgetl 0 0 1) (st [V [5, 7]] [0, 2]) = some .badIndex ∧
    specFault (.shl 0 0 0) (st [V [1]] [64] [] [] (some 1)) = some .capacity ∧
    specFault (.shl 0 0 0) (st [V [1]] [63] [] [] (some 1)) = none ∧
    (∃ t, exec (.shl 0 0 0) (st [V [1]] [63] [] [] (some 1)) = .next t) ∧
    decode ((st [] []).start 0#32).cw = .error .unassignedOpcode :=
  ⟨by decide, by decide, by decide, by decide, by decide, by decide, by decide, by decide, ⟨_, rfl⟩, by decide⟩

theorem witness_CommandsChangeOnlyTheirDestination :
    modeOf (exec (.random 1 0) (st [] [65] [1, 2])) = some .idle ∧
    modeOf (exec (.cmp 1 0 1) (st [V [5, 7]] [])) = some .idle := by decide

theorem witness_LimbVectorsAreNumbers : (V [5, 7]).valid = true ∧ Value.zero.valid = true ∧ 1 < (V [5, 7]).len := by decide

/-- A carry that lengthens; a divisor shifted as far as REM shifts it. -/
theorem witness_IntermediatesStayBounded : (V [ones]).valid = true ∧ (V [1]).valid = true ∧
    (V [ones, ones]).valid = true ∧ (V [1]).val ≠ 0 ∧ (V [1]).val ≤ (V [ones, ones]).val ∧
    127 ≤ bitLen (V [ones, ones]) - bitLen (V [1]) := by decide

/-- LMAX 1 at 64 and at 65 bits, and no bits at all. -/
theorem witness_RandomResult : (st [] [65] [] [] (some 1)).overBits 65 = true ∧
    (st [] [64] [] [] (some 1)).overBits 64 = false ∧ (st [] [0] [] [] (some 1)).overBits 0 = false := by decide

theorem witness_MovAndVchkResult : ((st [V [5, 7]] []).readV 0).valid = true ∧
    ((st [V [5, 0]] []).readV 0).valid = false := by decide

/-- Zero and a two-limb value. -/
theorem witness_VlenResult : ((st [] []).readV 0).valid = true ∧ ((st [V [0, 2]] []).readV 0).valid = true ∧
    Nat.log2 ((st [V [0, 2]] []).readV 0).val / 64 + 1 < 2 ^ 64 := by decide

/-- The clauses of VLEN, BITLEN and TZCNT about a count that does not fit a word, at any `k` from `2^70` on: a register
that holds `2^k`. -/
theorem witness_countTooWide (k : Nat) : ∃ s : State, (s.readV 0).valid = true ∧ (s.readV 0).val ≠ 0 ∧
    Nat.log2 (s.readV 0).val = k ∧ 2 ^ k ∣ (s.readV 0).val ∧ ¬2 ^ (k + 1) ∣ (s.readV 0).val := by
  refine ⟨State.reset.writeV 0 (limbsOf (2 ^ k)), ?_⟩
  rw [State.writeV_readV, if_pos rfl, limbsOf_val]
  exact ⟨limbsOf_valid _, (Nat.two_pow_pos k).ne', Nat.log2_two_pow, dvd_rfl,
    fun h => absurd ((Nat.pow_dvd_pow_iff_le_right (by decide)).1 h) (by omega)⟩

/-- The clause about a source that is not normalized, of every result statement that has one (Vlen, Vgetl, Add, Sub, Mul,
Shl, Shr, Rem, Cmp, Cmpw, Bitlen, Tzcnt, Parity, Dec, Orw, Modpow, Modpoww, Mrtest): the first or the last source. -/
theorem witness_invalidSource : ((st [V [5, 0], V [7]] [] [] [] (some 2)).readV 0).valid = false ∧
    ((st [V [5, 0], V [7]] [] [] [] (some 2)).readV 1).valid = true ∧
    (st [V [5, 0], V [7]] [] [] [] (some 2)).lmaxLegal = true := by decide

/-- The last limb's index, and the first that is none. -/
theorem witness_VgetlResult : ((st [V [5, 7]] [1]).readS 0).toNat < ((st [V [5, 7]] [1]).readV 0).len ∧
    ((st [V [5, 7]] [2]).readV 0).len ≤ ((st [V [5, 7]] [2]).readS 0).toNat := by decide

/-- At LMAX 1, the largest sum that fits and the smallest that does not; the same product. -/
theorem witness_AddResult : (st [V [ones], V [1]] [] [] [] (some 1)).lmaxLegal = true ∧
    ((st [V [ones], V [1]] [] [] [] (some 1)).readV 0).valid = true ∧
    ((st [V [ones], V [1]] [] [] [] (some 1)).readV 1).valid = true ∧
    (st [V [ones], V [1]] [] [] [] (some 1)).holds
      (((st [V [ones], V [1]] [] [] [] (some 1)).readV 0).val + ((st [V [ones], V [1]] [] [] [] (some 1)).readV 2).val) = true ∧
    (st [V [ones], V [1]] [] [] [] (some 1)).holds
      (((st [V [ones], V [1]] [] [] [] (some 1)).readV 0).val + ((st [V [ones], V [1]] [] [] [] (some 1)).readV 1).val) = false := by
  decide

theorem witness_MulResult : (st [V [ones], V [2], V [1]] [] [] [] (some 1)).lmaxLegal = true ∧
    ((st [V [ones], V [2], V [1]] [] [] [] (some 1)).readV 0).valid = true ∧
    (st [V [ones], V [2], V [1]] [] [] [] (some 1)).holds (((st [V [ones], V [2], V [1]] []).readV 0).val *
      ((st [V [ones], V [2], V [1]] []).readV 2).val) = true ∧
    (st [V [ones], V [2], V [1]] [] [] [] (some 1)).holds (((st [V [ones], V [2], V [1]] []).readV 0).val *
      ((st [V [ones], V [2], V [1]] []).readV 1).val) = false := by decide

/-- Equal operands do not fault; one more does. -/
theorem witness_SubResult : (V [5, 7]).valid = true ∧ (V [5, 7]).val ≤ (V [5, 7]).val ∧
    (V [5, 7]).val < (V [6, 7]).val := by decide

/-- LMAX 1: a shift to the top bit, one past it, and zero by any count. -/
theorem witness_ShlResult : (st [V [1]] [] [] [] (some 1)).overBits (Nat.log2 1 + 1 + 63) = false ∧
    (st [V [1]] [] [] [] (some 1)).overBits (Nat.log2 1 + 1 + 64) = true ∧ Value.zero.val = 0 := by decide

theorem witness_ShrResult : ((st [V [ones, ones]] [65]).readV 0).valid = true := by decide

theorem witness_RemResult : (V [100]).valid = true ∧ (V [30]).val ≠ 0 ∧ Value.zero.val = 0 := by decide

theorem witness_CmpResult : (V [0, 1]).valid = true ∧ (V [ones]).val < (V [0, 1]).val := by decide

theorem witness_CmpwResult : ((st [V [0, 1]] [ones]).readV 0).valid = true := by decide

theorem witness_BitlenResult : ((st [] []).readV 0).valid = true ∧ Nat.log2 (V [0, 0, 8]).val + 1 < 2 ^ 64 := by decide

theorem witness_TzcntResult : ((st [] []).readV 0).val = 0 ∧ ((st [V [0, 0, 8]] []).readV 0).valid = true ∧
    2 ^ 131 ∣ (V [0, 0, 8]).val ∧ ¬2 ^ 132 ∣ (V [0, 0, 8]).val := by decide

theorem witness_ParityResult : ((st [V [96]] []).readV 0).valid = true := by decide

theorem witness_DecResult : ((st [V [0, 1]] []).readV 0).valid = true ∧ ((st [V [0, 1]] []).readV 0).val ≠ 0 ∧
    ((st [] []).readV 0).val = 0 := by decide

theorem witness_OrwResult : ((st [V [0xF0, 7]] [0x0F]).readV 0).valid = true := by decide

/-- Modulus 1, modulus above 1, modulus 0; exponent 0. -/
theorem witness_ModpowResult : ((st [V [5], V [0], V [1]] []).readV 2).val ≠ 0 ∧ ((st [V [5], V [0], V [1]] []).readV 1).val = 0 ∧
    (V [0, 1]).valid = true ∧ ((st [V [5]] []).readV 2).val = 0 := by decide

theorem witness_ModpowwResult : ((st [V [2], V [1000]] [10]).readV 0).valid = true ∧
    ((st [V [2], V [1000]] [10]).readV 1).val ≠ 0 ∧ ((st [V [2]] [10]).readV 1).val = 0 := by decide

/-- Each branch: below 5, even, odd from 5 on. -/
theorem witness_MrtestResult : ((st [V [3]] []).readV 0).valid = true ∧ (V [3]).val < 5 ∧ (V [96]).val % 2 = 0 ∧
    5 ≤ (V [5, 7]).val ∧ (V [5, 7]).val % 2 = 1 := by decide

/-- The smallest candidate that reaches a round. -/
theorem witness_WitnessesLieInRange : (V [5]).valid = true ∧ 5 ≤ (V [5]).val ∧ (V [5]).val % 2 = 1 := by decide

theorem witness_MrtestAcceptsEveryPrime :
    ((st [V [97]] []).readV 0).valid = true ∧ ((st [V [97]] []).readV 0).val.Prime := by
  rw [show ((st [V [97]] []).readV 0).val = 97 by decide]
  exact ⟨by decide, by norm_num⟩

theorem witness_MrtestKnownOutcomes : 1 ≤ 1 ∧ 0 < 1 ∧ witnessAt 9 0 ⟨[2], 0⟩ ∉ [256, 305, 458, 460, 511] ∧
    witnessAt 9 0 ⟨[0], 0⟩ ∈ [256, 305, 458, 460, 511] := by decide

/-- An iteration of a GENPRIME that has begun, and of one that begins. -/
theorem witness_GenprimeIteration : generating.params.spt.contains 0#64 = false ∧
    generating.mode = .busy (some 8#64) ∧ (∀ b, (st [] [8]).mode ≠ .busy (some b)) ∧
    (st [] [8]).overBits 8 = false := ⟨by decide, by decide, (by intro b h; cases h), by decide⟩

/-- A bit count above capacity. -/
theorem witness_GenprimeIteration_capacity : (∀ b, (st [] [129] [] [] (some 2)).mode ≠ .busy (some b)) ∧
    (st [] [129] [] [] (some 2)).overBits ((st [] [129] [] [] (some 2)).readS 0).toNat = true :=
  ⟨(by intro b h; cases h), by decide⟩

/-- Discarded: 129, divisible by 3 (D175). -/
theorem witness_GenprimeIteration_discarded :
    ∃ p ∈ [2#64, 3#64, 5#64, 7#64], p.toNat ∣ (limbsOf ((randValue 8 ⟨[0], 0⟩).1.val ||| 1)).val := by
  rw [limbsOf_val]; exact ⟨3#64, by decide, by decide⟩

/-- Not discarded, and rejected: 143, witness 64 (D175). -/
theorem witness_GenprimeIteration_rejected :
    (∀ p ∈ [2#64, 3#64, 5#64, 7#64], ¬p.toNat ∣ (limbsOf ((randValue 8 ⟨[0x0E, 0], 0⟩).1.val ||| 1)).val) ∧
    (millerRabin (limbsOf 143) 40 ⟨[0], 1⟩).1 = false := by
  simp only [limbsOf_val, show (randValue 8 ⟨[0x0E, 0], 0⟩).1.val ||| 1 = 143 by decide]
  refine ⟨fun p hp => ?_, ?_⟩
  · simp only [List.mem_cons, List.not_mem_nil, or_false] at hp
    rcases hp with rfl | rfl | rfl | rfl <;> decide
  rw [show limbsOf 143 = V [143] from limbsOf_of_val (a := V [143]) (by decide)]
  decide

/-- Not discarded, and accepted: 3, no table (D176). -/
theorem witness_GenprimeIteration_accepted :
    (∀ p ∈ (st [] [2] [0]).params.spt, ¬p.toNat ∣ (limbsOf ((randValue 2 ⟨[0], 0⟩).1.val ||| 1)).val) ∧
    (millerRabin (limbsOf 3) 40 ⟨[], 1⟩).1 = true := by
  rw [show limbsOf 3 = V [3] from limbsOf_of_val (a := V [3]) (by decide)]
  exact ⟨(by intro p hp; cases hp), by decide⟩

theorem witness_GenprimeGuarantee : (st [] [2] [0]).mode = .idle ∧ (st [] [2] [0]).readS 0 = BitVec.ofNat 64 2 ∧
    2 < 2 ^ 64 ∧ modeOf (exec (.genprime 0 0) (st [] [2] [0])) = some .idle := by decide

theorem witness_GenprimeOfTinyBitsNeverEnds : (1#64).toNat ≤ 1 ∧
    ({ (st [] []).start 0x40000000#32 with mode := .busy (some 1#64) } : State).mode = .busy (some 1#64) ∧
    (st [] []).params.spt.contains 0#64 = false ∧ decode ((st [] []).start 0x40000000#32).cw = .ok (.genprime 0 0) ∧
    ((st [] []).start 0x40000000#32).host = [] := by decide

/-- A difference that borrows and a sum that carries, neither faulting. -/
theorem witness_ArithmeticLaws : (2 : VReg) ≠ 1 ∧ (st [V [0, 1], V [1]] [] [] [] (some 2)).lmaxLegal = true ∧
    (st [V [0, 1], V [1]] [] [] [] (some 2)).holds ((st [V [0, 1], V [1]] []).readV 0).val = true ∧
    modeOf (exec (.sub 2 0 1) (st [V [0, 1], V [1]] [] [] [] (some 2))) = some .idle ∧
    modeOf (exec (.add 2 0 1) (st [V [0, 1], V [1]] [] [] [] (some 2))) = some .idle := by decide

theorem witness_ShiftRoundTrip : ((st [V [ones, ones]] [65]).readV 0).valid = true ∧
    modeOf (exec (.shl 1 0 0) (st [V [ones, ones]] [65])) = some .idle := by decide

theorem witness_DigitStringsMeanNumbers : (fromBinary ['0', '1', '1']).isSome = true ∧ (fromHex ['f', '0']).isSome = true ∧
    binDigit '2' = none ∧ hexDigit 'g' = none ∧ 15 < 16 ∧ 'g' ∉ ['0', '9', 'a', 'f', 'A', 'F'] := by decide

theorem witness_RenderingsParseBack : (V [8, 1]).valid = true := by decide

end Sys2Proof.Tests
end

section
/-! What one command can do, said once (10_state R38), and the frame of the commands. -/
namespace Sys2Proof.Machine

variable {s t : State}

/-- The ways a command can end its turn: a fault, a value or a scalar written to its destination, a check passed, or
GENPRIME going on to another iteration (10_state R38, 46_prime_generator R223). -/
inductive CommandEffect (i : Instr) (s : State) : State → Prop
  | fault (c : FaultCode) : CommandEffect i s (s.raise c)
  | value {rd : VReg} (x : Value) {r : Rbs} (dest : valueDest i = some rd) (draws : drawing i = false → r = s.rbs) :
      CommandEffect i s ((s.setRbs r).writeV rd x).complete
  | scalar {rd : SReg} (w : Word) {r : Rbs} (dest : scalarDest i = some rd) (draws : drawing i = false → r = s.rbs) :
      CommandEffect i s ((s.setRbs r).writeS rd w).complete
  | check : CommandEffect i s s.complete
  | goesOn {rd : VReg} {ra : SReg} (b : Word) (r : Rbs) (gen : i = .genprime rd ra) :
      CommandEffect i s ((s.setRbs r).setMode (.busy (some b)))

/-- Every next state of the answer `e` is an effect of the command `i` on `s`. -/
def HasEffects (i : Instr) (s : State) (e : Res) : Prop := ∀ t, e = .next t → CommandEffect i s t

section
variable {i : Instr} {e : Res} {k : Value → Res} {c : FaultCode} {r : VReg} {q : SReg}

theorem hasEffects_complete : HasEffects i s (.next s.complete) := fun _ ht => Host.Outcome.next.inj ht ▸ .check

theorem hasEffects_withValue (h : ∀ a, HasEffects i s (k a)) : HasEffects i s (withValue r s k) := by
  intro t ht
  rcases withValue_next ht with ⟨-, hk⟩ | ⟨-, rfl⟩
  · exact h _ t hk
  · exact .fault _

theorem hasEffects_require {ok : Bool} (h : HasEffects i s e) : HasEffects i s (require ok c s e) := by
  intro t ht
  rcases require_next ht with ⟨-, he⟩ | ⟨-, rfl⟩
  · exact h t he
  · exact .fault _

theorem hasEffects_finishV_drawn {x : Value} {b : Rbs} (hd : valueDest i = some r)
    (hb : drawing i = false → b = s.rbs) : HasEffects i s (finishV r x (s.setRbs b)) :=
  fun _ ht => finishV_next.1 ht ▸ .value x hd hb

theorem hasEffects_finishS_drawn {w : Word} {b : Rbs} (hd : scalarDest i = some q)
    (hb : drawing i = false → b = s.rbs) : HasEffects i s (finishS q w (s.setRbs b)) :=
  fun _ ht => finishS_next.1 ht ▸ .scalar w hd hb

theorem hasEffects_finishV {x : Value} (hd : valueDest i = some r) : HasEffects i s (finishV r x s) :=
  hasEffects_finishV_drawn hd fun _ => rfl

theorem hasEffects_finishS {w : Word} (hd : scalarDest i = some q) : HasEffects i s (finishS q w s) :=
  hasEffects_finishS_drawn hd fun _ => rfl

theorem hasEffects_finishChecked {x : Value} (hd : valueDest i = some r) : HasEffects i s (finishChecked r x s) :=
  hasEffects_require (hasEffects_finishV hd)

theorem hasEffects_finishCount {n : Nat} (hd : scalarDest i = some q) : HasEffects i s (finishCount q n s) :=
  fun _ ht => hasEffects_finishS hd _ (finishS_next.2 (finishCount_next ht).2)

theorem hasEffects_genStep {bits : Word} : HasEffects (.genprime r q) s (genStep r bits s) := by
  intro t ht
  rcases (genStep_next ht).2 with ⟨x, -, rfl⟩ | ⟨-, rfl⟩
  · exact .value x rfl nofun
  · exact .goesOn bits _ rfl

theorem hasEffects_execGenprime : HasEffects (.genprime r q) s (execGenprime r q s) := by
  unfold execGenprime
  split
  · exact hasEffects_genStep
  all_goals exact hasEffects_require hasEffects_genStep

end

/-- Every command, whatever the state, ends in one of the effects (10_state R38). MODPOWW and MRTEST are rewritten to
their meaning first, because comparing them by unfolding is too deep for the kernel. -/
theorem exec_effect {i : Instr} (h : exec i s = .next t) : CommandEffect i s t := by
  suffices hs : HasEffects i s (exec i s) from hs t h
  cases i with
  | wrap rd ra => exact hasEffects_finishV rfl
  | random rd ra => exact hasEffects_require (hasEffects_finishV_drawn rfl nofun)
  | mov rd ra => exact hasEffects_withValue fun _ => hasEffects_finishV rfl
  | vchk ra => exact hasEffects_withValue fun _ => hasEffects_complete
  | vlen rd ra => exact hasEffects_withValue fun _ => hasEffects_finishCount rfl
  | vgetl rd ra rb => exact hasEffects_withValue fun _ => hasEffects_require (hasEffects_finishS rfl)
  | add rd ra rb => exact hasEffects_withValue fun _ => hasEffects_withValue fun _ => hasEffects_finishChecked rfl
  | sub rd ra rb =>
    exact hasEffects_withValue fun _ => hasEffects_withValue fun _ => hasEffects_require (hasEffects_finishV rfl)
  | mul rd ra rb => exact hasEffects_withValue fun _ => hasEffects_withValue fun _ => hasEffects_finishChecked rfl
  | shl rd ra rb => exact hasEffects_withValue fun _ => hasEffects_require (hasEffects_finishV rfl)
  | shr rd rb => exact hasEffects_withValue fun _ => hasEffects_finishV rfl
  | rem rd ra rb =>
    exact hasEffects_withValue fun _ => hasEffects_withValue fun _ => hasEffects_require (hasEffects_finishV rfl)
  | cmp rd ra rb => exact hasEffects_withValue fun _ => hasEffects_withValue fun _ => hasEffects_finishS rfl
  | cmpw rd ra rb => exact hasEffects_withValue fun _ => hasEffects_finishS rfl
  | bitlen rd ra => exact hasEffects_withValue fun _ => hasEffects_finishCount rfl
  | tzcnt rd ra => exact hasEffects_withValue fun _ => hasEffects_finishCount rfl
  | parity rd ra => exact hasEffects_withValue fun _ => hasEffects_finishS rfl
  | dec rd => exact hasEffects_withValue fun _ => hasEffects_require (hasEffects_finishV rfl)
  | orw rd rb => exact hasEffects_withValue fun _ => hasEffects_finishV rfl
  | modpow rd ra rb rc =>
    exact hasEffects_withValue fun _ => hasEffects_withValue fun _ => hasEffects_withValue fun _ =>
      hasEffects_require (hasEffects_finishV rfl)
  | modpoww rd ra rb rc =>
    rw [exec, execModpoww]
    exact hasEffects_withValue fun _ => hasEffects_withValue fun _ => hasEffects_require (hasEffects_finishV rfl)
  | mrtest rd ra rb =>
    rw [exec, execMrtest]
    exact hasEffects_withValue fun _ => hasEffects_finishS_drawn rfl nofun
  | genprime rd ra => exact hasEffects_execGenprime

/-- Settles O17: each effect of a command but the fault writes the destination, the source of bits and the machine
state only. -/
theorem commandsChangeOnlyTheirDestination : Obligations.CommandsChangeOnlyTheirDestination := by
  intro i s t h hm
  cases exec_effect h with
  | fault c => exact absurd rfl hm
  | value x dest draws =>
    refine ⟨fun q hq => ?_, fun _ _ => rfl, draws, rfl, rfl, rfl, rfl, rfl, rfl, rfl⟩
    have hne : q ≠ _ := fun he => hq (he ▸ dest)
    simp [hne]
  | scalar w dest draws =>
    refine ⟨fun _ _ => rfl, fun q hq => ?_, draws, rfl, rfl, rfl, rfl, rfl, rfl, rfl⟩
    have hne : q ≠ _ := fun he => hq (he ▸ dest)
    simp [hne]
  | check => simp
  | goesOn b r gen =>
    subst gen
    exact ⟨fun _ _ => rfl, fun _ _ => rfl, nofun, rfl, rfl, rfl, rfl, rfl, rfl, rfl⟩

end Sys2Proof.Machine
end

section
/-! What one step can do, said once, by whose turn it is (10_state R38, 20_memory R61), and what follows for every
step. -/
namespace Sys2Proof.Machine

variable {s t : State} {es : List HostEvent}

/-- `s` with other contents in the three fields that belong to the host: its list, the last word it read, and the
model's counter of unspecified words. -/
def State.hostSide (s : State) (es : List HostEvent) (w : Option Word) (n : Nat) : State :=
  { s with host := es, reply := w, free := n }

/-- The host's next event resets the CORE. -/
def State.hostResets (s : State) : Prop := ∃ e ∈ s.host.head?, e.resets = true

/-- The host's next event is a read or a write that does not reset. -/
def State.hostAccesses (s : State) : Prop := ∃ e ∈ s.host.head?, e.resets = false ∧ e.accesses = true

/-- The host leaves the step to the CORE: it has no event left, passes or polls. -/
def State.coresTurn (s : State) : Prop := ∀ e ∈ s.host.head?, e.resets = false ∧ e.accesses = false

theorem State.hostAccesses.not_resets (h : s.hostAccesses) : ¬s.hostResets := by
  obtain ⟨e, he, hr, -⟩ := h
  rintro ⟨e', he', hr'⟩
  obtain rfl := Option.mem_unique he he'
  exact Bool.false_ne_true (hr.symm.trans hr')

theorem State.coresTurn.not_resets (h : s.coresTurn) : ¬s.hostResets :=
  fun ⟨e, he, hr⟩ => Bool.false_ne_true ((h e he).1.symm.trans hr)

theorem State.coresTurn.not_accesses (h : s.coresTurn) : ¬s.hostAccesses :=
  fun ⟨e, he, _, ha⟩ => Bool.false_ne_true ((h e he).2.symm.trans ha)

theorem hostRead_next {off width : Nat} (h : hostRead off width s = .next t) :
    ∃ row, windowRow off width = some row ∧ t = readRow row s := by
  unfold hostRead at h
  split at h
  · cases h
  · exact ⟨_, ‹_›, (Host.Outcome.next.inj h).symm⟩

theorem hostWrite_next {off width : Nat} {v : Word} (h : hostWrite off width v s = .next t) :
    ∃ row, windowRow off width = some row ∧ t = writeRow row v s := by
  unfold hostWrite at h
  split at h
  · cases h
  · exact ⟨_, ‹_›, (Host.Outcome.next.inj h).symm⟩

/-- A host read writes the host's fields only (20_memory R51). -/
theorem readRow_eq_hostSide (row : WindowRow) (s : State) : ∃ w n, readRow row s = s.hostSide s.host w n := by
  cases row with
  | cmd | ctrl | reserved | status => exact ⟨_, _, rfl⟩
  | faultInfo | scalar i =>
    rw [readRow]
    split <;> exact ⟨_, _, rfl⟩

/-- The ways a step can answer next, by whose turn it is: the host's reset, its write of CMD or of a scalar register in
IDLE, any other access, and the CORE's turn at rest, on an illegal word and on a command (10_state R38, 20_memory R61). -/
inductive StepEffect (s : State) : State → Prop
  | reset (es : List HostEvent) (who : s.hostResets) : StepEffect s (s.setHost es).resetCore
  | cmdWrite {es : List HostEvent} {v : Word} (who : s.host = .write 0x00 32 v :: es) (idle : s.mode = .idle) :
      StepEffect s ((s.setHost es).start (v.setWidth 32))
  | scalarWrite (i : SReg) (w : Word) (es : List HostEvent) (who : s.hostAccesses) (idle : s.mode = .idle) :
      StepEffect s ((s.setHost es).writeS i w)
  | access (es : List HostEvent) (w : Option Word) (n : Nat) (who : s.hostAccesses) : StepEffect s (s.hostSide es w n)
  | rest (es : List HostEvent) (w : Option Word) (n : Nat) (who : s.coresTurn) (rests : ∀ b, s.mode ≠ .busy b) :
      StepEffect s (s.hostSide es w n)
  | illegal {b : Option Word} (es : List HostEvent) (w : Option Word) (n : Nat) (who : s.coresTurn)
      (busy : s.mode = .busy b) : StepEffect s ((s.hostSide es w n).raise .illegalCmd)
  | command {b : Option Word} {i : Instr} {es : List HostEvent} {w : Option Word} {n : Nat} {t : State}
      (who : s.coresTurn) (busy : s.mode = .busy b) (dec : decode s.cw = .ok i)
      (effect : CommandEffect i (s.hostSide es w n) t) : StepEffect s t

theorem coreTurn_effect {w : Option Word} {n : Nat} (who : s.coresTurn)
    (h : coreTurn exec (s.hostSide es w n) = .next t) : StepEffect s t := by
  by_cases hb : ∃ b, s.mode = .busy b
  · obtain ⟨b, hb⟩ := hb
    cases hd : decode s.cw with
    | ok i => exact .command who hb hd (exec_effect ((coreTurn_busy (s := s.hostSide es w n) hb hd).symm.trans h))
    | error why =>
      rw [coreTurn_illegal (s := s.hostSide es w n) hb hd] at h
      exact Host.Outcome.next.inj h ▸ .illegal es w n who hb
  · have hr : ∀ b, s.mode ≠ .busy b := fun b hm => hb ⟨b, hm⟩
    rw [coreTurn_rest (s := s.hostSide es w n) hr] at h
    exact Host.Outcome.next.inj h ▸ .rest es w n who hr

theorem read_effect {off width : Nat} (who : s.host = .read off width :: es)
    (h : hostRead off width (s.setHost es) = .next t) : StepEffect s t := by
  obtain ⟨row, -, rfl⟩ := hostRead_next h
  obtain ⟨w, n, hrow⟩ := readRow_eq_hostSide row (s.setHost es)
  rw [hrow]
  exact .access es w n ⟨.read off width, by simp [who], rfl, rfl⟩

theorem writeRow_ctrl_effect {v : Word} (who : s.host = .write 0x18 64 v :: es) :
    StepEffect s (writeRow .ctrl v (s.setHost es)) := by
  rw [writeRow]
  split
  · exact .reset es ⟨_, by rw [who]; rfl, ‹_›⟩
  · exact .access es s.reply s.free ⟨_, by rw [who]; rfl, Bool.eq_false_of_not_eq_true ‹_›, rfl⟩

/-- A write of any row but CTRL does not reset. -/
theorem write_accesses {off width : Nat} {v : Word} {row : WindowRow} (who : s.host = .write off width v :: es)
    (hrow : windowRow off width = some row) (hc : row ≠ .ctrl) : s.hostAccesses := by
  refine ⟨_, by rw [who]; rfl, ?_, rfl⟩
  have hne : ¬(off = 0x18 ∧ width = 64) := by
    rintro ⟨rfl, rfl⟩
    exact hc (Option.some.inj hrow).symm
  have hb : (off == 0x18 && width == 64) = false := by simpa using hne
  simp only [HostEvent.resets, hb, Bool.false_and]

theorem write_effect {off width : Nat} {v : Word} (who : s.host = .write off width v :: es)
    (h : hostWrite off width v (s.setHost es) = .next t) : StepEffect s t := by
  obtain ⟨row, hrow, rfl⟩ := hostWrite_next h
  cases row with
  | ctrl =>
    obtain ⟨rfl, rfl⟩ := windowRow_ctrl hrow
    exact writeRow_ctrl_effect who
  | status | faultInfo | reserved => exact .access es s.reply s.free (write_accesses who hrow nofun)
  | cmd =>
    rw [writeRow]
    split
    · obtain ⟨rfl, rfl⟩ := windowRow_cmd hrow
      exact .cmdWrite who ‹_›
    · exact .access es s.reply s.free (write_accesses who hrow nofun)
  | scalar i =>
    rw [writeRow]
    split
    · exact .scalarWrite i v es (write_accesses who hrow nofun) ‹_›
    · exact .access es s.reply s.free (write_accesses who hrow nofun)

theorem poll_effect (who : s.host = .poll :: es) (h : step s = .next t) : StepEffect s t := by
  have turn : s.coresTurn := by simp [State.coresTurn, who, HostEvent.resets, HostEvent.accesses]
  rw [step_poll who] at h
  cases hm : s.mode.isBusy with
  | true =>
    rw [hm] at h
    exact coreTurn_effect (es := s.host) (w := some s.statusWord) (n := s.free) turn h
  | false =>
    rw [hm] at h
    refine Host.Outcome.next.inj h ▸ .rest es (some s.statusWord) s.free turn fun b hb => ?_
    simp [hb, Mode.isBusy] at hm

/-- Every step that answers next has one of the effects. -/
theorem step_effect (h : step s = .next t) : StepEffect s t := by
  rcases hh : s.host with _ | ⟨e, es⟩
  · exact coreTurn_effect (es := s.host) (w := s.reply) (n := s.free) (by simp [State.coresTurn, hh]) (step_nil hh ▸ h)
  cases e with
  | pass =>
    have turn : s.coresTurn := by simp [State.coresTurn, hh, HostEvent.resets, HostEvent.accesses]
    exact coreTurn_effect (es := es) (w := s.reply) (n := s.free) turn (step_pass hh ▸ h)
  | poll => exact poll_effect hh h
  | powerOn =>
    rw [step_powerOn hh] at h
    exact Host.Outcome.next.inj h ▸ .reset es ⟨.powerOn, by simp [hh], rfl⟩
  | read off width => exact read_effect hh (step_read hh ▸ h)
  | write off width v => exact write_effect hh (step_write hh ▸ h)

/-! The obligations about every step -/

theorem CommandEffect.params {i : Instr} (h : CommandEffect i s t) : t.params = s.params := by
  cases h <;> rfl

/-- Settles O22: no effect of a step touches the parameters. -/
theorem parametersNeverChange : Obligations.ParametersNeverChange := by
  intro s t h
  cases step_effect h with
  | command _ _ _ effect => exact effect.params
  | _ => rfl

theorem CommandEffect.mode {i : Instr} (h : CommandEffect i s t) :
    t.mode = .idle ∨ t.mode = .fault ∨ (t.cw = s.cw ∧ ∃ c rd ra, t.mode = .busy (some c) ∧ i = .genprime rd ra) := by
  cases h with
  | fault c => exact .inr (.inl rfl)
  | value | scalar | check => exact .inl rfl
  | goesOn b r gen => exact .inr (.inr ⟨rfl, b, _, _, rfl, gen⟩)

theorem CommandEffect.eq_raise {i : Instr} (h : CommandEffect i s t) (hm : t.mode = .fault) : ∃ c, t = s.raise c := by
  cases h with
  | fault c => exact ⟨c, rfl⟩
  | value | scalar | check | goesOn => cases hm

theorem StepEffect.from_idle (h : StepEffect s t) (hm : s.mode = .idle) :
    t.mode = .idle ∨ (t.mode = .busy none ∧ ∃ v es, s.host = .write 0x00 32 v :: es ∧ t.cw = v.setWidth 32) := by
  cases h with
  | reset => exact .inl rfl
  | cmdWrite who => exact .inr ⟨rfl, _, _, who, rfl⟩
  | scalarWrite | access | rest => exact .inl hm
  | illegal _ _ _ _ busy | command _ busy => cases hm.symm.trans busy

theorem StepEffect.busy_reset {b : Option Word} (h : StepEffect s t) (hm : s.mode = .busy b) (hr : s.hostResets) :
    t.mode = .idle := by
  cases h with
  | reset => rfl
  | cmdWrite _ idle => cases hm.symm.trans idle
  | scalarWrite _ _ _ who | access _ _ _ who => exact absurd hr who.not_resets
  | rest _ _ _ who | illegal _ _ _ who | command who => exact absurd hr who.not_resets

theorem StepEffect.busy_access {b : Option Word} (h : StepEffect s t) (hm : s.mode = .busy b) (ha : s.hostAccesses) :
    t.mode = .busy b ∧ t.cw = s.cw ∧ t.v = s.v ∧ t.s = s.s := by
  cases h with
  | reset _ who => exact absurd who ha.not_resets
  | cmdWrite _ idle | scalarWrite _ _ _ _ idle => cases hm.symm.trans idle
  | access => exact ⟨hm, rfl, rfl, rfl⟩
  | rest _ _ _ who | illegal _ _ _ who | command who => exact absurd ha who.not_accesses

theorem StepEffect.busy_turn {b : Option Word} (h : StepEffect s t) (hm : s.mode = .busy b) (ht : s.coresTurn) :
    t.mode = .idle ∨ t.mode = .fault ∨
      (t.cw = s.cw ∧ ∃ c rd ra, t.mode = .busy (some c) ∧ decode s.cw = .ok (.genprime rd ra)) := by
  cases h with
  | reset _ who => exact absurd who ht.not_resets
  | cmdWrite _ idle => cases hm.symm.trans idle
  | scalarWrite _ _ _ who | access _ _ _ who => exact absurd who ht.not_accesses
  | rest _ _ _ _ rests => exact absurd hm (rests b)
  | illegal => exact .inr (.inl rfl)
  | command _ _ dec effect =>
    rcases effect.mode with hi | hf | ⟨hcw, c, rd, ra, hb, rfl⟩
    · exact .inl hi
    · exact .inr (.inl hf)
    · exact .inr (.inr ⟨hcw, c, rd, ra, hb, dec⟩)

theorem StepEffect.from_fault (h : StepEffect s t) (hm : s.mode = .fault) :
    t.mode = .fault ∨ (t.mode = .idle ∧ s.hostResets) := by
  cases h with
  | reset _ who => exact .inr ⟨rfl, who⟩
  | cmdWrite _ idle | scalarWrite _ _ _ _ idle => cases hm.symm.trans idle
  | access | rest => exact .inl hm
  | illegal _ _ _ _ busy | command _ busy => cases hm.symm.trans busy

theorem StepEffect.into_fault (h : StepEffect s t) (hs : s.mode ≠ .fault) (ht : t.mode = .fault) :
    t.v = s.v ∧ t.s = s.s ∧ t.faultCw = s.cw ∧ t.faultCode.isSome = true ∧ (∃ b, s.mode = .busy b) ∧ s.coresTurn := by
  cases h with
  | reset | cmdWrite => cases ht
  | scalarWrite | access | rest => exact absurd ht hs
  | illegal _ _ _ who busy => exact ⟨rfl, rfl, rfl, rfl, ⟨_, busy⟩, who⟩
  | command who busy _ effect =>
    obtain ⟨c, rfl⟩ := effect.eq_raise ht
    exact ⟨rfl, rfl, rfl, rfl, ⟨_, busy⟩, who⟩

theorem StepEffect.value_written (h : StepEffect s t) (hv : t.v ≠ s.v) : (∃ b, s.mode = .busy b) ∨ s.hostResets := by
  cases h with
  | reset _ who => exact .inr who
  | cmdWrite | scalarWrite | access | rest => exact absurd rfl hv
  | illegal _ _ _ _ busy | command _ busy => exact .inl ⟨_, busy⟩

/-- Settles O18: each clause is read off the effects of a step. -/
theorem machineStateTransitions : Obligations.MachineStateTransitions := by
  intro s t h
  have effect := step_effect h
  exact ⟨effect.from_idle, fun b hm => ⟨effect.busy_reset hm, effect.busy_access hm, effect.busy_turn hm⟩,
    effect.from_fault, effect.into_fault, effect.value_written⟩

end Sys2Proof.Machine
end

section
/-! One turn of the CORE and one access to the registers CMD, STATUS, FAULTINFO and CTRL (10_state R29 to R33). -/
namespace Sys2Proof.Machine

variable {s : State} {es : List HostEvent}

/-- Settles O6: the CORE's turn on a decoded word is `exec`, whatever event left it the turn. -/
theorem stepRunsTheDecodedCommand : Obligations.StepRunsTheDecodedCommand := by
  refine ⟨fun s bits i hm hd => ⟨fun hh => ?_, fun es hh => ?_, fun es hh => ?_⟩, fun s w i hd => ?_⟩
  · rw [step_nil hh, coreTurn_busy hm hd]
  · rw [step_pass hh, coreTurn_busy (s := s.setHost es) hm hd]
  · have hw : s.statusWord = 1#64 := by rw [State.statusWord, hm]
    rw [step_poll hh, hm, hw]
    exact coreTurn_busy (s := s.answer 1#64) hm hd
  · have hw : BitVec.ofNat 32 (w % 2 ^ 32) = BitVec.ofNat 32 w := BitVec.eq_of_toNat_eq (by simp)
    rw [State.withFetchWord, hw, step_pass rfl]
    exact coreTurn_busy (s := s.start (BitVec.ofNat 32 w)) rfl hd

section
variable {off width : Nat} {row : WindowRow}

/-- The step of a host read of a row of the window. -/
theorem step_read_row (h : s.host = .read off width :: es) (hr : windowRow off width = some row) :
    step s = .next (readRow row (s.setHost es)) := by rw [step_read h, hostRead, hr]

/-- The step of a host write of a row of the window. -/
theorem step_write_row {v : Word} (h : s.host = .write off width v :: es) (hr : windowRow off width = some row) :
    step s = .next (writeRow row v (s.setHost es)) := by rw [step_write h, hostWrite, hr]

end

/-- Settles O8: the row of CMD, split by whether the CORE is in IDLE. -/
theorem commandRegisterAccess : Obligations.CommandRegisterAccess := by
  refine fun s es => ⟨fun v hh hm => ?_, fun v hh hm => ?_, fun hh => step_read_row hh rfl⟩
  · rw [step_write_row hh rfl, writeRow, if_pos (by exact hm)]
  · rw [step_write_row hh rfl, writeRow, if_neg (by exact hm)]

/-- Settles O9: the row of CTRL, split by bit 0 of the word written. -/
theorem controlRegisterAccess : Obligations.ControlRegisterAccess := by
  refine fun s es => ⟨fun v hh hb => ?_, fun v hh hb => ?_, fun hh => step_read_row hh rfl⟩
  · rw [step_write_row hh rfl, writeRow, hb, if_pos rfl]
  · rw [step_write_row hh rfl, writeRow, hb, if_neg Bool.false_ne_true]

theorem statusWord_bit0 (s : State) : s.statusWord.getLsbD 0 = true ↔ ∃ bits, s.mode = .busy bits := by
  rw [State.statusWord]
  cases s.mode <;> simp

theorem statusWord_bit1 (s : State) : s.statusWord.getLsbD 1 = true ↔ s.mode = .fault := by
  rw [State.statusWord]
  cases s.mode <;> simp

theorem statusWord_toNat_lt (s : State) : s.statusWord.toNat < 2 ^ 2 := by
  rw [State.statusWord]
  cases s.mode <;> simp

/-- Settles O11: the bits of the word `State.statusWord`. -/
theorem statusReadsTheMachineState : Obligations.StatusReadsTheMachineState := by
  refine fun s es => ⟨fun hh => ⟨s.statusWord, step_read_row hh rfl, statusWord_bit0 s, statusWord_bit1 s, ?_, ?_⟩,
    fun v hh => step_write_row hh rfl⟩
  · rintro ⟨h0, h1⟩
    obtain ⟨b, hb⟩ := (statusWord_bit0 s).1 h0
    cases hb.symm.trans ((statusWord_bit1 s).1 h1)
  · intro j hj
    exact Nat.testBit_lt_two_pow ((statusWord_toNat_lt s).trans_le (Nat.pow_le_pow_right two_pos hj))

theorem faultInfoWord_code (s : State) :
    s.faultInfoWord.extractLsb' 0 8 = (s.faultCode.map FaultCode.number).getD 0#8 := by
  ext i hi
  have h64 : i < 64 := by omega
  simp [State.faultInfoWord, hi, h64]

theorem faultInfoWord_cw (s : State) : s.faultInfoWord.extractLsb' 8 32 = s.faultCw := by
  ext i hi
  have h64 : 8 + i < 64 := by omega
  simp [State.faultInfoWord, hi, h64]

theorem faultInfoWord_high (s : State) : s.faultInfoWord.extractLsb' 40 24 = 0#24 := by
  ext i hi
  have hcw : s.faultCw.getLsbD (40 + i - 8) = false := BitVec.getLsbD_of_ge _ _ (by omega)
  have hcode : ((s.faultCode.map FaultCode.number).getD 0#8).getLsbD (40 + i) = false :=
    BitVec.getLsbD_of_ge _ _ (by omega)
  simp [State.faultInfoWord, hcw, hcode]

/-- Settles O12: the fields of the word `State.faultInfoWord`. -/
theorem faultInfoReadsCodeAndWord : Obligations.FaultInfoReadsCodeAndWord := by
  refine fun s es => ⟨fun hh hb => ⟨s.faultInfoWord, ?_, faultInfoWord_cw s, faultInfoWord_high s, ?_, ?_, ?_⟩,
    fun v hh => step_write_row hh rfl, rfl⟩
  · rw [step_read_row hh rfl, readRow, State.setHost_mode, isBusy_false hb]
    rfl
  · intro hc
    rw [faultInfoWord_code, hc]
    rfl
  · intro c hc
    rw [faultInfoWord_code, hc]
    rfl
  · intro inv hm
    have hc : s.faultCode = none := by simpa using mt inv.code.2 hm
    rw [State.faultInfoWord, hc, inv.noWord hc]
    rfl

end Sys2Proof.Machine
end

section
/-! Limb vectors as numbers: the vector `limbs(n)` and the sizes of intermediates. -/
namespace Sys2Proof.Machine

theorem limbs_limbsOf (n : Nat) : (limbsOf n).limbs =
    (List.range (Nat.log2 n / 64 + 1)).map fun j => BitVec.ofNat 64 (n / 2 ^ (64 * j)) := by
  rw [limbsOf, List.range_succ_eq_map]
  rfl

theorem limbsOf_len (n : Nat) : (limbsOf n).len = Nat.log2 n / 64 + 1 := by
  rw [← limbs_length, limbs_limbsOf, List.length_map, List.length_range]

theorem limbsOf_limb {n j : Nat} (hj : j < (limbsOf n).len) :
    ((limbsOf n).limbs.getD j 0#64).toNat = n / 2 ^ (64 * j) % 2 ^ 64 := by
  rw [limbsOf_len] at hj
  simp [limbs_limbsOf, List.getD_eq_getElem?_getD, hj]

/-- Settles O27: a normalized vector is `limbsOf` of its number, whose length and limbs are the formulas of 10_state
R22. -/
theorem limbVectorsAreNumbers : Obligations.LimbVectorsAreNumbers := by
  refine ⟨fun a b ha hb => ⟨eq_of_val ha hb, congrArg _⟩, fun n => ⟨limbsOf_valid n, limbsOf_val n⟩, fun a ha => ?_⟩
  have he := limbsOf_of_val ha
  refine ⟨he.symm, ?_, fun l hl => len_le_iff ha hl, fun j hj => ?_⟩
  · have hlen : a.len = Nat.log2 a.val / 64 + 1 := by simpa only [he] using limbsOf_len a.val
    split
    · simp [hlen, ‹a.val = 0›]
    · exact hlen
  · simpa only [he] using limbsOf_limb (n := a.val) (j := j) (by rwa [he])

theorem addV_len_le (a b : Value) : (addV a b).len ≤ max a.len b.len + 1 := by
  rw [len_le_iff (addV_valid a b) (Nat.succ_pos _), addV_val, Nat.mul_succ, Nat.pow_add]
  have ha : a.val < 2 ^ (64 * max a.len b.len) := (val_lt a).trans_le (Nat.pow_le_pow_right two_pos (by omega))
  have hb : b.val < 2 ^ (64 * max a.len b.len) := (val_lt b).trans_le (Nat.pow_le_pow_right two_pos (by omega))
  omega

theorem mulV_len_le (a b : Value) : (mulV a b).len ≤ a.len + b.len := by
  rw [len_le_iff (mulV_valid a b) (Nat.add_pos_left (len_pos a) _), mulV_val, Nat.mul_add, Nat.pow_add]
  exact Nat.mul_lt_mul'' (val_lt a) (val_lt b)

theorem bitLen_le (a : Value) : bitLen a ≤ 64 * a.len := by
  have := len_pos a
  rw [bitLen]
  omega

theorem bitLen_le_of_val_le {a m : Value} (ha : a.valid = true) (hm : m.valid = true) (h0 : m.val ≠ 0)
    (h : m.val ≤ a.val) : bitLen m ≤ bitLen a := by
  have ha0 : a.val ≠ 0 := by omega
  rw [bitLen_eq ha, bitLen_eq hm, if_neg h0, if_neg ha0, Nat.log2_eq_log_two, Nat.log2_eq_log_two]
  exact Nat.succ_le_succ (Nat.log_mono_right h)

/-- A shift that keeps the bit length within that of `a` keeps the limb count within that of `a`. -/
theorem shlV_len_le {a m : Value} {sh : Nat} (hm : m.valid = true) (h : bitLen m + sh ≤ bitLen a) :
    (shlV m sh).len ≤ a.len := by
  rw [len_le_iff (shlV_valid m sh) (len_pos a), shlV_val]
  calc m.val * 2 ^ sh < 2 ^ bitLen m * 2 ^ sh := Nat.mul_lt_mul_of_pos_right (lt_two_pow_bitLen hm) (by positivity)
    _ = 2 ^ (bitLen m + sh) := (Nat.pow_add ..).symm
    _ ≤ 2 ^ (64 * a.len) := Nat.pow_le_pow_right two_pos (h.trans (bitLen_le a))

/-- Settles O28: each length is bounded by bounding the number (`len_le_iff`). -/
theorem intermediatesStayBounded : Obligations.IntermediatesStayBounded := by
  refine ⟨fun a b _ _ => ⟨addV_len_le a b, mulV_len_le a b⟩, fun a m sh ha hm h0 h hsh => shlV_len_le hm ?_⟩
  have := bitLen_le_of_val_le ha hm h0 h
  omega

end Sys2Proof.Machine
end

section
/-! The host register window: which accesses are its rows (20_memory R51, R52), and what each row does by machine state
(20_memory R61). -/
namespace Sys2Proof.Machine

variable {s : State} {es : List HostEvent} {off width : Nat}

theorem readRow_faultInfo_rest (h : ∀ b, s.mode ≠ .busy b) : readRow .faultInfo s = s.answer s.faultInfoWord := by
  rw [readRow, isBusy_false h, if_neg Bool.false_ne_true]

theorem readRow_scalar_rest (i : SReg) (h : ∀ b, s.mode ≠ .busy b) : readRow (.scalar i) s = s.answer (s.readS i) := by
  rw [readRow, isBusy_false h, if_neg Bool.false_ne_true]

theorem readRow_faultInfo_busy {b : Option Word} (h : s.mode = .busy b) : readRow .faultInfo s = s.answerFree := by
  rw [readRow, h, Mode.isBusy, if_pos rfl]

theorem readRow_scalar_busy {b : Option Word} (i : SReg) (h : s.mode = .busy b) :
    readRow (.scalar i) s = s.answerFree := by
  rw [readRow, h, Mode.isBusy, if_pos rfl]

theorem writeRow_scalar_idle (i : SReg) (v : Word) (h : s.mode = .idle) : writeRow (.scalar i) v s = s.writeS i v :=
  if_pos h

theorem writeRow_scalar_discarded (i : SReg) (v : Word) (h : s.mode ≠ .idle) : writeRow (.scalar i) v s = s := if_neg h

theorem statusWord_busy {b : Option Word} (h : s.mode = .busy b) : s.statusWord = 1#64 := by rw [State.statusWord, h]

/-- Out of IDLE a write of CMD or of a scalar register is discarded. -/
theorem step_write_discarded {i : SReg} {w : Word} (hm : s.mode ≠ .idle)
    (h : s.host = .write (0x40 + 8 * i.val) 64 w :: es ∨ s.host = .write 0x00 32 w :: es) :
    step s = .next (s.setHost es) := by
  rcases h with hh | hh
  · rw [step_write_row hh (windowRow_scalar i), writeRow_scalar_discarded i w (by exact hm)]
  · obtain ⟨-, discarded, -⟩ := commandRegisterAccess s es
    exact discarded w hh hm

/-- Settles O13: the rows' effects, split by machine state. -/
theorem hostAccessByMachineState : Obligations.HostAccessByMachineState := by
  refine fun s es i => ⟨fun hb => ⟨fun hh => ?_, fun hh => step_read_row hh rfl, fun hh => ?_⟩, fun hm w hh => ?_,
    fun b hm => ⟨fun hh => ?_, ?_, fun w => step_write_discarded (by simp [hm]), fun w hh h0 => ?_⟩,
    fun hm w => step_write_discarded (by simp [hm])⟩
  · rw [step_read_row hh (windowRow_scalar i), readRow_scalar_rest i (by exact hb)]
    rfl
  · rw [step_read_row hh rfl, readRow_faultInfo_rest (by exact hb)]
    rfl
  · rw [step_write_row hh (windowRow_scalar i), writeRow_scalar_idle i w (by exact hm)]
  · rw [← statusWord_busy hm]
    exact step_read_row hh rfl
  · rintro (hh | hh)
    · rw [step_read_row hh (windowRow_scalar i), readRow_scalar_busy i (by exact hm)]
      exact ⟨_, _, rfl⟩
    · rw [step_read_row hh rfl, readRow_faultInfo_busy (by exact hm)]
      exact ⟨_, _, rfl⟩
  · obtain ⟨resets, -⟩ := controlRegisterAccess s es
    exact resets w hh h0

/-- The registers of the reserved row (20_memory R51). -/
theorem windowRow_reserved (h : 0x20 ≤ off ∧ off < 0x40 ∧ width = 64 ∧ off % 8 = 0) :
    windowRow off width = some .reserved := by
  obtain ⟨hlo, hhi, rfl, hal⟩ := h
  have hoff : off = 0x20 ∨ off = 0x28 ∨ off = 0x30 ∨ off = 0x38 := by omega
  rcases hoff with rfl | rfl | rfl | rfl <;> rfl

/-- The rows of the window are those of 20_memory R51. -/
theorem windowRow_isSome_iff : (windowRow off width).isSome ↔
    (off = 0x00 ∧ width = 32) ∨ (off = 0x08 ∧ width = 64) ∨ (off = 0x10 ∧ width = 64) ∨ (off = 0x18 ∧ width = 64) ∨
      (0x20 ≤ off ∧ off < 0x40 ∧ width = 64 ∧ off % 8 = 0) ∨ (∃ i : SReg, off = 0x40 + 8 * i.val ∧ width = 64) := by
  constructor
  · intro h
    by_cases hs : 0x40 ≤ off ∧ off < 0x80 ∧ width = 64 ∧ off % 8 = 0
    · obtain ⟨hlo, hhi, hw, hal⟩ := hs
      exact .inr (.inr (.inr (.inr (.inr ⟨⟨(off - 0x40) / 8, by omega⟩, by simp only; omega, hw⟩))))
    · by_contra hn
      simp only [not_or] at hn
      obtain ⟨hcmd, hstatus, hinfo, hctrl, hres, -⟩ := hn
      rw [windowRow, if_neg hcmd, if_neg hstatus, if_neg hinfo, if_neg hctrl, if_neg hres, if_neg hs] at h
      cases h
  · rintro (⟨rfl, rfl⟩ | ⟨rfl, rfl⟩ | ⟨rfl, rfl⟩ | ⟨rfl, rfl⟩ | hres | ⟨i, rfl, rfl⟩)
    · rfl
    · rfl
    · rfl
    · rfl
    · rw [windowRow_reserved hres, Option.isSome_some]
    · rw [windowRow_scalar, Option.isSome_some]

/-- The step of a host read of no row. -/
theorem step_read_noRow (h : s.host = .read off width :: es) (hr : ¬(windowRow off width).isSome) :
    step s = .refused .notAWindowRow := by rw [step_read h, hostRead, Option.not_isSome_iff_eq_none.1 hr]

/-- The step of a host write of no row. -/
theorem step_write_noRow {v : Word} (h : s.host = .write off width v :: es) (hr : ¬(windowRow off width).isSome) :
    step s = .refused .notAWindowRow := by rw [step_write h, hostWrite, Option.not_isSome_iff_eq_none.1 hr]

/-- Settles O14: an access goes on exactly where `windowRow` has a row for it. -/
theorem onlyWindowRowsHaveMeaning : Obligations.OnlyWindowRowsHaveMeaning := by
  refine fun s es off width => ⟨fun hh => ⟨fun hn => ?_, fun hrow => ?_, fun hres => ?_⟩,
    fun v hh => ⟨fun hn => ?_, fun hrow => ?_, fun hres => ?_⟩⟩
  · exact step_read_noRow hh (mt windowRow_isSome_iff.1 hn)
  · obtain ⟨row, hr⟩ := Option.isSome_iff_exists.1 (windowRow_isSome_iff.2 hrow)
    obtain ⟨w, n, hread⟩ := readRow_eq_hostSide row (s.setHost es)
    rw [step_read_row hh hr, hread]
    exact ⟨_, rfl, rfl, rfl⟩
  · exact step_read_row hh (windowRow_reserved hres)
  · exact step_write_noRow hh (mt windowRow_isSome_iff.1 hn)
  · obtain ⟨row, hr⟩ := Option.isSome_iff_exists.1 (windowRow_isSome_iff.2 hrow)
    exact ⟨_, step_write_row hh hr⟩
  · exact step_write_row hh (windowRow_reserved hres)

end Sys2Proof.Machine
end

section
/-! The decoder and the encoder field by field: a word is its fields, a legal word's unused fields are zero and its used
fields register numbers, and a row's mask tests exactly that (30_encoding R81 to R86). -/
namespace Sys2Proof

variable {f : Fields} {m : Format} {cw : CmdWord} {i : Instr} {op : BitVec 8} {r r' : Row}

/-- The word with given fields (30_encoding R81). -/
def Fields.word (f : Fields) : CmdWord := f.op ++ (f.rd ++ (f.ra ++ (f.rb ++ (f.rc ++ f.z))))

theorem word_ofWord : Function.LeftInverse Fields.word Fields.ofWord := by
  intro cw
  rw [Fields.word, Fields.ofWord]
  iterate 5 rw [BitVec.extractLsb'_append_extractLsb'_eq_extractLsb' (by rfl)]
  exact BitVec.extractLsb'_eq_self

/-- Two words with the same fields are the same word (30_encoding R81). -/
theorem ofWord_injective : Function.Injective Fields.ofWord := word_ofWord.injective

/-- The register a field of a class names; an unused field is packed as register 0 (30_encoding R82). -/
def FieldClass.register (c : FieldClass) (x : BitVec 4) : Fin 8 :=
  match c with
  | .unused => 0
  | .value | .scalar => regOf x

theorem ofNat_regOf : ∀ x : BitVec 4, (!x.getLsbD 3) = true → BitVec.ofNat 4 (regOf x).val = x := by decide

/-- Packing the register a legal field names gives the field back (30_encoding R82). -/
theorem ofNat_register {c : FieldClass} {x : BitVec 4} (hu : c.unusedOk x = true) (hr : c.registerOk x = true) :
    BitVec.ofNat 4 (c.register x).val = x := by
  cases c with
  | unused => exact (beq_iff_eq.1 hu).symm
  | value | scalar => exact ofNat_regOf x hr

/-- An opcode with a format selects a command, whose word is packed from the registers the format's fields name
(30_encoding R83, R84). -/
theorem buildInstr_of_format (h : formatOf f.op = some m) : ∃ i, buildInstr f = .ok i ∧
    encode i = packWord f.op (m.rd.register f.rd) (m.ra.register f.ra) (m.rb.register f.rb) (m.rc.register f.rc) := by
  obtain ⟨op, rd, ra, rb, rc, z⟩ := f
  simp only at h
  unfold formatOf at h
  split at h
  case h_24 => cases h
  all_goals
    cases h
    exact ⟨_, rfl, rfl⟩

/-- A legal word decodes to a command whose encoding is the word (30_encoding R86). -/
theorem exists_decode_of_legal (h : (Fields.ofWord cw).illegal? = none) : ∃ i, decode cw = .ok i ∧ encode i = cw := by
  obtain ⟨m, hm, hz, hu, hr⟩ := (illegal_none_iff _).1 h
  obtain ⟨i, hi, he⟩ := buildInstr_of_format hm
  simp only [Format.unusedOk, Format.registersOk, Bool.and_eq_true] at hu hr
  obtain ⟨⟨⟨hud, hua⟩, hub⟩, huc⟩ := hu
  obtain ⟨⟨⟨hrd, hra⟩, hrb⟩, hrc⟩ := hr
  refine ⟨i, by rw [decode, h, hi], ofWord_injective ?_⟩
  rw [he, fields_packWord, ofNat_register hud hrd, ofNat_register hua hra, ofNat_register hub hrb,
    ofNat_register huc hrc, ← hz]

theorem legal_of_decode (h : decode cw = .ok i) : (Fields.ofWord cw).illegal? = none := by
  unfold decode at h
  split at h
  · cases h
  · assumption

/-- The decoder rejects exactly the words that violate a condition of 30_encoding R86. -/
theorem decode_error_iff : (∃ why, decode cw = .error why) ↔ (Fields.ofWord cw).illegal? ≠ none := by
  constructor
  · rintro ⟨why, hd⟩ hl
    obtain ⟨i, hi, -⟩ := exists_decode_of_legal hl
    cases hd.symm.trans hi
  · intro hl
    cases hd : decode cw with
    | error why => exact ⟨why, rfl⟩
    | ok i => exact absurd (legal_of_decode hd) hl

/-- Every command's word is legal (30_encoding R86). -/
theorem wellFormed_encode (i : Instr) : wellFormed (encode i) = true := by
  cases i with
  | wrap => exact Laws.LegalWord.wrap ..
  | random => exact Laws.LegalWord.random ..
  | mov => exact Laws.LegalWord.mov ..
  | vchk => exact Laws.LegalWord.vchk ..
  | vlen => exact Laws.LegalWord.vlen ..
  | vgetl => exact Laws.LegalWord.vgetl ..
  | add => exact Laws.LegalWord.add ..
  | sub => exact Laws.LegalWord.sub ..
  | mul => exact Laws.LegalWord.mul ..
  | shl => exact Laws.LegalWord.shl ..
  | shr => exact Laws.LegalWord.shr ..
  | rem => exact Laws.LegalWord.rem ..
  | cmp => exact Laws.LegalWord.cmp ..
  | cmpw => exact Laws.LegalWord.cmpw ..
  | bitlen => exact Laws.LegalWord.bitlen ..
  | tzcnt => exact Laws.LegalWord.tzcnt ..
  | parity => exact Laws.LegalWord.parity ..
  | dec => exact Laws.LegalWord.dec ..
  | orw => exact Laws.LegalWord.orw ..
  | modpow => exact Laws.LegalWord.modpow ..
  | modpoww => exact Laws.LegalWord.modpoww ..
  | mrtest => exact Laws.LegalWord.mrtest ..
  | genprime => exact Laws.LegalWord.genprime ..

theorem legal_encode (i : Instr) : (Fields.ofWord (encode i)).illegal? = none :=
  Option.isNone_iff_eq_none.1 (wellFormed_encode i)

/-- On the fields of a command's own word the decoder reads that command (30_encoding R84). -/
theorem buildInstr_encode (i : Instr) : buildInstr (Fields.ofWord (encode i)) = .ok i := by
  cases i <;> simp only [encode, fields_packWord, buildInstr, regOf_ofNat]

/-- Settles O2: a command's word is legal, so its fields are read, and they name the command. -/
theorem decodeOfEncode : Obligations.DecodeOfEncode := by
  intro i
  rw [decode, legal_encode]
  exact buildInstr_encode i

/-- Settles O3: a word that decodes is legal, and a legal word is the encoding of its command. -/
theorem encodeOfDecode : Obligations.EncodeOfDecode := by
  intro cw i h
  obtain ⟨j, hj, he⟩ := exists_decode_of_legal (legal_of_decode h)
  cases hj.symm.trans h
  exact he

/-- The opcode of a row (30_encoding R84). -/
def Row.opcode (r : Row) : BitVec 8 := r.pattern.extractLsb' 24 8

/-- The bits a mask tests in a field: all of an unused field, the top bit of a used one (30_encoding R84). -/
def FieldClass.mask (c : FieldClass) : BitVec 4 :=
  match c with
  | .unused => 0xF#4
  | .value | .scalar => 0x8#4

/-- The fields of the mask of a format (30_encoding R84). -/
def Format.mask (m : Format) : Fields := ⟨0xFF#8, m.rd.mask, m.ra.mask, m.rb.mask, m.rc.mask, 0xFF#8⟩

/-- A field passes its mask exactly when it is legal (30_encoding R82, R84). -/
theorem and_mask_eq_zero {c : FieldClass} {x : BitVec 4} :
    x &&& c.mask = 0#4 ↔ c.unusedOk x = true ∧ c.registerOk x = true := by
  revert x
  cases c <;> decide

/-- Every row's mask is that of its opcode's format, and its match is its opcode alone (30_encoding R84). -/
theorem row_fields : ∀ r ∈ commandTable, (formatOf r.opcode).map Format.mask = some (Fields.ofWord r.mask) ∧
    Fields.ofWord r.pattern = ⟨r.opcode, 0#4, 0#4, 0#4, 0#4, 0#8⟩ := by decide

theorem opcode_injective : ∀ r ∈ commandTable, ∀ r' ∈ commandTable, r.opcode = r'.opcode → r = r' := by decide

/-- The opcodes with a format are the table's (30_encoding R83). -/
theorem formatOf_eq_none_iff : formatOf op = none ↔ ∀ r ∈ commandTable, r.opcode ≠ op := by
  constructor
  · rintro h r hr rfl
    obtain ⟨hm, -⟩ := row_fields r hr
    rw [h] at hm
    cases hm
  · intro h
    unfold formatOf
    split
    case h_24 => rfl
    all_goals exact absurd h (by decide)

/-- The fields of a masked word. -/
theorem ofWord_and (a b : CmdWord) : Fields.ofWord (a &&& b) =
    ⟨(Fields.ofWord a).op &&& (Fields.ofWord b).op, (Fields.ofWord a).rd &&& (Fields.ofWord b).rd,
      (Fields.ofWord a).ra &&& (Fields.ofWord b).ra, (Fields.ofWord a).rb &&& (Fields.ofWord b).rb,
      (Fields.ofWord a).rc &&& (Fields.ofWord b).rc, (Fields.ofWord a).z &&& (Fields.ofWord b).z⟩ := by
  simp only [Fields.ofWord, BitVec.extractLsb'_and]

/-- A row selects the legal words of its opcode: the test of 30_encoding R84 is the whole legality check of R86. -/
theorem selects_iff (hr : r ∈ commandTable) :
    r.selects cw = true ↔ (Fields.ofWord cw).op = r.opcode ∧ (Fields.ofWord cw).illegal? = none := by
  obtain ⟨hmask, hpat⟩ := row_fields r hr
  obtain ⟨m, hm, hmask⟩ := Option.map_eq_some_iff.1 hmask
  have hall (x : BitVec 8) : x &&& 0xFF#8 = x := BitVec.and_allOnes
  rw [Row.selects, beq_iff_eq, ← ofWord_injective.eq_iff, ofWord_and, ← hmask, hpat]
  simp only [Format.mask, Fields.mk.injEq, and_mask_eq_zero, hall]
  refine and_congr_right fun hop => ?_
  rw [illegal_none_iff, hop, hm]
  simp only [Option.some.injEq, exists_eq_left', Format.unusedOk, Format.registersOk, Bool.and_eq_true]
  tauto

/-- A legal word is selected by the row of its opcode (30_encoding R84, R86). -/
theorem legal_iff_selected : (Fields.ofWord cw).illegal? = none ↔ ∃ r ∈ commandTable, r.selects cw = true := by
  constructor
  · intro hl
    obtain ⟨m, hm, -⟩ := (illegal_none_iff _).1 hl
    have hrow : ∃ r ∈ commandTable, r.opcode = (Fields.ofWord cw).op := by
      by_contra hn
      push Not at hn
      rw [formatOf_eq_none_iff.2 hn] at hm
      cases hm
    obtain ⟨r, hr, hop⟩ := hrow
    exact ⟨r, hr, (selects_iff hr).2 ⟨hop.symm, hl⟩⟩
  · rintro ⟨r, hr, hs⟩
    exact ((selects_iff hr).1 hs).2

/-- At most one row selects a word, because the opcodes differ (30_encoding R86). -/
theorem selecting_row_unique (hr : r ∈ commandTable) (hr' : r' ∈ commandTable) (hs : r.selects cw = true)
    (hs' : r'.selects cw = true) : r = r' :=
  opcode_injective r hr r' hr' (((selects_iff hr).1 hs).1.symm.trans ((selects_iff hr').1 hs').1)

/-- The row of a command's mnemonic has the opcode its word is packed with (30_encoding R84). -/
theorem exists_row_of_mnemonic (i : Instr) :
    ∃ r ∈ commandTable, r.mnemonic = Machine.mnemonic i ∧ (Fields.ofWord (encode i)).op = r.opcode := by
  cases i <;> simp only [encode, fields_packWord, Machine.mnemonic] <;> decide

/-- The row of a command's mnemonic selects the command's word (30_encoding R84). -/
theorem exists_row_selects_encode (i : Instr) :
    ∃ r ∈ commandTable, r.selects (encode i) = true ∧ r.mnemonic = Machine.mnemonic i := by
  obtain ⟨r, hr, hn, hop⟩ := exists_row_of_mnemonic i
  exact ⟨r, hr, (selects_iff hr).2 ⟨hop, legal_encode i⟩, hn⟩

/-- Settles O4: a word that decodes is its command's encoding, which the row of the mnemonic selects; and a selected
word is legal and so decodes, to a command whose row is the only one that selects it. -/
theorem decodeFollowsTheTable : Obligations.DecodeFollowsTheTable := by
  have forward : ∀ (cw : CmdWord) (i : Instr), decode cw = .ok i →
      ∃ r ∈ commandTable, r.selects cw = true ∧ r.mnemonic = Machine.mnemonic i := by
    intro cw i h
    rw [← encodeOfDecode cw i h]
    exact exists_row_selects_encode i
  refine ⟨forward, fun cw r hr hs => ?_⟩
  obtain ⟨i, hd, -⟩ := exists_decode_of_legal (legal_iff_selected.2 ⟨r, hr, hs⟩)
  obtain ⟨r', hr', hs', hn⟩ := forward cw i hd
  obtain rfl := selecting_row_unique hr' hr hs' hs
  exact ⟨i, hd, hn.symm⟩

/-- Which words the decoder rejects, by the table's rows (30_encoding R86). -/
theorem decode_error_iff_not_selected :
    (∃ why, decode cw = .error why) ↔ ∀ r ∈ commandTable, r.selects cw = false := by
  rw [decode_error_iff, Ne, legal_iff_selected]
  push Not
  simp only [Bool.not_eq_true]

/-- Which words the decoder rejects, by their fields (30_encoding R86). -/
theorem decode_error_iff_fields : (∃ why, decode cw = .error why) ↔
    (∀ r ∈ commandTable, r.opcode ≠ (Fields.ofWord cw).op) ∨ (Fields.ofWord cw).z ≠ 0#8 ∨
      ∃ m, formatOf (Fields.ofWord cw).op = some m ∧
        (m.unusedOk (Fields.ofWord cw) = false ∨ m.registersOk (Fields.ofWord cw) = false) := by
  rw [decode_error_iff, Ne, illegal_none_iff, ← formatOf_eq_none_iff]
  cases formatOf (Fields.ofWord cw).op with
  | none => simp
  | some m =>
    simp only [Option.some.injEq, exists_eq_left', reduceCtorEq, false_or, ← Bool.not_eq_true]
    tauto

/-- Settles O1: each word is the encoding of its command. -/
theorem sampleWordsDecode : Obligations.SampleWordsDecode :=
  ⟨decodeOfEncode (.add 1 2 3), decodeOfEncode (.modpow 0 1 2 3), decodeOfEncode (.shr 5 2),
    decodeOfEncode (.random 2 1), decodeOfEncode (.cmp 3 4 1), decodeOfEncode (.mrtest 5 0 4),
    decodeOfEncode (.genprime 0 0)⟩

end Sys2Proof
end

section
/-! What the CORE does with a word the host writes: it takes it, and then runs its command or raises `ILLEGAL_CMD`
(30_encoding R86). -/
namespace Sys2Proof.Machine

/-- Settles O5: the decoder's clauses are those on rows and on fields; the steps are a write of CMD in IDLE and the
CORE's turn on a legal and on an illegal word. -/
theorem illegalWordsFault : Obligations.IllegalWordsFault := by
  refine ⟨fun cw r₁ r₂ h₁ h₂ => selecting_row_unique h₁ h₂, fun cw => decode_error_iff_not_selected,
    fun cw => decode_error_iff_fields, ⟨.unassignedOpcode, rfl⟩, ⟨.unassignedOpcode, rfl⟩, fun s v es hm hh => ?_,
    fun s bits i hm hh hd => ?_, fun s bits why hm hh hd => ?_⟩
  · obtain ⟨taken, -⟩ := commandRegisterAccess s es
    exact ⟨_, taken v hh hm, rfl, rfl, rfl, rfl, rfl⟩
  · rw [step_nil hh, coreTurn_busy hm hd]
  · exact ⟨_, (step_nil hh).trans (coreTurn_illegal hm hd), rfl, rfl, rfl, rfl, rfl⟩

end Sys2Proof.Machine
end

section
/-! The Limb Store commands (40_limb_store R100 to R106): each answers by its source's validity and its own check. -/
namespace Sys2Proof.Machine

section
variable {s : State} {q : SReg} {n : Nat}

theorem finishCount_fits (h : n < 2 ^ 64) : finishCount q n s = .next (s.writeS q (BitVec.ofNat 64 n)).complete :=
  if_pos h

theorem finishCount_tooWide (h : 2 ^ 64 ≤ n) : finishCount q n s = .refused .countTooWide := if_neg h.not_gt

end

/-- The limb at any index, a missing one read as zero, is a digit of the value in base `2^64`. -/
theorem limbs_getD_eq (a : Value) (i : Nat) : a.limbs.getD i 0#64 = BitVec.ofNat 64 (a.val / 2 ^ (64 * i)) := by
  have hdrop : a.val / 2 ^ (64 * i) = (a.limbs.getD i 0#64).toNat + 2 ^ 64 * limbsVal (a.limbs.drop i).tail := by
    rw [Value.val, ← limbsVal_drop, limbsVal_headD, List.headD_eq_head?_getD, List.head?_drop,
      List.getD_eq_getElem?_getD]
  refine BitVec.eq_of_toNat_eq ?_
  rw [hdrop, BitVec.toNat_ofNat, Nat.add_mul_mod_self_left, Nat.mod_eq_of_lt (BitVec.isLt _)]

theorem Rbs.draw_drawn (r : Rbs) : r.draw.2.drawn = r.drawn + 1 := by
  unfold Rbs.draw
  split <;> rfl

theorem drawMany_drawn (n : Nat) (r : Rbs) : (Rbs.drawMany n r).2.drawn = r.drawn + n := by
  induction n generalizing r with
  | zero => rfl
  | succ n ih =>
    rw [Rbs.drawMany, ih, Rbs.draw_drawn]
    omega

theorem randValue_zero (r : Rbs) : randValue 0 r = (Value.zero, r) := rfl

/-- No bit asked for is no word drawn, so the source's next state needs no case on the count. -/
theorem randValue_rbs (k : Nat) (r : Rbs) : (randValue k r).2 = (Rbs.drawMany ((k + 63) / 64) r).2 := by
  unfold randValue
  split
  · subst k
    rfl
  · rfl

/-- Settles O29: WRAP has no check, and a one-limb vector is its word. -/
theorem wrapResult : Obligations.WrapResult := fun s _ ra => ⟨rfl, ofWord_val (s.readS ra)⟩

/-- Settles O30: the check on the bit count, and RandValue's bits and bounds (`randValue_testBit`,
`randValue_bounds`). -/
theorem randomResult : Obligations.RandomResult := by
  intro s rd ra
  refine ⟨fun hover => ?_, fun hwithin => ⟨(randValue (s.readS ra).toNat s.rbs).1,
    (randValue (s.readS ra).toNat s.rbs).2, ?_, randValue_valid _ _, ?_, fun hk => ?_, fun hk => ?_⟩⟩
  · rw [exec, execRandom, hover, Bool.not_true, require_false]
  · rw [exec, execRandom, hwithin, Bool.not_false, require_true, finishV]
  · rw [randValue_rbs, drawMany_drawn]
  · rw [hk, randValue_zero]
    exact ⟨zero_val, rfl⟩
  · obtain ⟨lower, upper⟩ := randValue_bounds hk s.rbs
    exact ⟨lower, upper, randValue_rbs _ _, fun j hj => by rw [randValue_testBit hk, if_pos hj]⟩

/-- Settles O31: the validity assertion decides both commands. -/
theorem movAndVchkResult : Obligations.MovAndVchkResult := by
  intro s rd ra
  rw [exec, execMov, exec, execVchk]
  refine ⟨fun valid => ?_, fun invalid => ⟨withValue_invalid invalid, withValue_invalid invalid⟩⟩
  rw [withValue_valid valid, withValue_valid valid]
  exact ⟨rfl, rfl⟩

/-- Settles O32: the count VLEN finishes with is the number of limbs of O27. -/
theorem vlenResult : Obligations.VlenResult := by
  intro s rd ra
  rw [exec, execVlen]
  refine ⟨withValue_invalid, fun valid => ?_⟩
  obtain ⟨-, -, formulas⟩ := limbVectorsAreNumbers
  obtain ⟨-, hlen, -⟩ := formulas _ valid
  rw [withValue_valid valid, hlen]
  exact ⟨finishCount_fits, finishCount_tooWide⟩

/-- Settles O33: the index check, and the limb as a digit of the value (`limbs_getD_eq`). -/
theorem vgetlResult : Obligations.VgetlResult := by
  intro s rd ra rb
  rw [exec, execVgetl]
  refine ⟨withValue_invalid, fun valid => ?_⟩
  rw [withValue_valid valid, limbs_getD_eq]
  refine ⟨fun inside => ?_, fun outside => ?_⟩
  · rw [decide_eq_true inside, require_true, finishS]
  · rw [decide_eq_false outside.not_gt, require_false]

end Sys2Proof.Machine
end

section
/-! Digit strings (40_limb_store R112 to R116): parsing in any base whose chunks fill a limb, the two alphabets, and
that parsing undoes rendering. -/
namespace Sys2Proof.Machine

section
variable {digit : Char → Option Nat} {base per w count : Nat} {str : List Char} {v a : Value}

theorem fromDigits_eq_none_iff : fromDigits digit base per str = none ↔ str = [] ∨ ∃ c ∈ str, digit c = none := by
  cases str with
  | nil => simp [fromDigits]
  | cons c cs =>
    rw [fromDigits, List.isEmpty_cons, if_neg Bool.false_ne_true, Option.map_eq_none_iff, digits_none]
    simp only [List.mem_reverse, reduceCtorEq, false_or]

/-- A parsed string means the number it spells, most significant digit first. -/
theorem fromDigits_eq_limbsOf (hdigit : ∀ c d, digit c = some d → d < base) (hbase : 0 < base) (hper : 0 < per)
    (hlimb : base ^ per = 2 ^ 64) (h : fromDigits digit base per str = some v) :
    v = limbsOf (str.foldl (fun n c => base * n + (digit c).getD 0) 0) := by
  unfold fromDigits at h
  split at h
  · cases h
  · obtain ⟨ds, hds, rfl⟩ := Option.map_eq_some_iff.1 h
    have hmap := digits_some digit _ ds hds
    have hlt : ∀ d ∈ ds, d < base := by
      intro d hd
      rw [hmap, List.mem_map] at hd
      obtain ⟨c, -, rfl⟩ := hd
      cases hc : digit c with
      | none => exact hbase
      | some d => exact hdigit c d hc
    have hlen : ds.length ≤ str.length := by rw [hmap, List.length_map, List.length_reverse]
    rw [norm_eq_limbsOf, chunks_val hbase hper hlimb _ ds hlt hlen, hmap, List.map_reverse, spelled_rev,
      List.foldl_map]

/-- Parsing undoes rendering, for digits of `w` bits of which `count` fill a limb. -/
theorem fromDigits_render (hdigit : ∀ c d, digit c = some d → d < 2 ^ w)
    (hchar : ∀ d < 2 ^ w, digit (digitChar d) = some d) (hcount : 0 < count) (hlimb : w * count = 64)
    (ha : a.valid = true) :
    fromDigits digit (2 ^ w) count (a.limbs.reverse.flatMap (limbDigits w count)) = some a := by
  cases h : fromDigits digit (2 ^ w) count (a.limbs.reverse.flatMap (limbDigits w count)) with
  | none =>
    rcases fromDigits_eq_none_iff.1 h with hnil | ⟨c, hc, hbad⟩
    · have hlen := render_len w count a.limbs
      rw [hnil, limbs_length] at hlen
      exact absurd hlen (Nat.mul_pos hcount (len_pos a)).ne
    · obtain ⟨d, hd, rfl⟩ := render_mem w count a.limbs c hc
      exact absurd (hbad.symm.trans (hchar d hd)) nofun
  | some v =>
    have hv := fromDigits_eq_limbsOf hdigit (by positivity) hcount (by rw [← Nat.pow_mul, hlimb]) h
    rw [hv, render_fold digit w count hchar hlimb, Nat.mul_zero, Nat.zero_add]
    exact congrArg some (limbsOf_of_val ha)

end

theorem binDigit_lt {c : Char} {d : Nat} (h : binDigit c = some d) : d < 2 := by
  unfold binDigit at h
  split_ifs at h <;> cases h <;> decide

/-- A hexadecimal digit is an ASCII character and means a number below 16. -/
theorem hexDigit_bounds {c : Char} {d : Nat} (h : hexDigit c = some d) : c.toNat < 103 ∧ d < 16 := by
  unfold hexDigit at h
  split_ifs at h <;> cases h <;> omega

theorem binDigit_digitChar : ∀ d < 2 ^ 1, binDigit (digitChar d) = some d := by decide

theorem hexDigit_digitChar : ∀ d < 2 ^ 4, hexDigit (digitChar d) = some d := by decide

theorem digitChar_binary : ∀ d < 2 ^ 1, digitChar d = '0' ∨ digitChar d = '1' := by decide

theorem digitChar_lower : ∀ d < 2 ^ 4,
    digitChar d ∈ ['0', '1', '2', '3', '4', '5', '6', '7', '8', '9', 'a', 'b', 'c', 'd', 'e', 'f'] := by decide

/-- The hexadecimal digits, by their character codes. -/
theorem mem_hexDigits_of_code : ∀ n < 103, hexDigit (Char.ofNat n) ≠ none → Char.ofNat n ∈
    ['0', '1', '2', '3', '4', '5', '6', '7', '8', '9'] ++ ['a', 'b', 'c', 'd', 'e', 'f'] ++
      ['A', 'B', 'C', 'D', 'E', 'F'] := by decide

/-- Settles O58: parsing fails and means its number by the lemmas for any base; the alphabets are finite. -/
theorem digitStringsMeanNumbers : Obligations.DigitStringsMeanNumbers := by
  refine ⟨fun s => fromDigits_eq_none_iff, fun s => fromDigits_eq_none_iff,
    fun s v => fromDigits_eq_limbsOf (fun _ _ => binDigit_lt) two_pos (by decide) rfl,
    fun s v => fromDigits_eq_limbsOf (fun _ _ h => (hexDigit_bounds h).2) (by decide) (by decide) rfl,
    fun c => rfl, by decide, fun c hc => ?_⟩
  by_contra hsome
  obtain ⟨d, hd⟩ := Option.ne_none_iff_exists'.1 hsome
  rw [← Char.ofNat_toNat c] at hsome hc
  exact hc (mem_hexDigits_of_code _ (hexDigit_bounds hd).1 hsome)

/-- Settles O59: both renderings are digits of a fixed width that fill each limb (`fromDigits_render`). -/
theorem renderingsParseBack : Obligations.RenderingsParseBack := by
  intro a ha
  refine ⟨?_, ?_, fromDigits_render (fun _ _ => binDigit_lt) binDigit_digitChar (by decide) rfl ha,
    fromDigits_render (fun _ _ h => (hexDigit_bounds h).2) hexDigit_digitChar (by decide) rfl ha, ?_, ?_⟩
  · rw [toBinary, render_len, limbs_length]
  · rw [toHex, render_len, limbs_length]
  · intro c hc
    obtain ⟨d, hd, rfl⟩ := render_mem 1 64 a.limbs c hc
    exact digitChar_binary d hd
  · intro c hc
    obtain ⟨d, hd, rfl⟩ := render_mem 4 16 a.limbs c hc
    exact digitChar_lower d hd

end Sys2Proof.Machine
end

section
/-! Addition, subtraction and multiplication (41_add_sub_mul): the limb cells, the three commands, and their laws. -/
namespace Sys2Proof.Machine

/-! The cells -/

/-- The plain product is the accumulating one with nothing to add. -/
theorem mul64_eq_mac64 (a b : Word) : mul64 a b = mac64 0#64 a b 0#64 := by
  simp [mul64, mac64]

/-- The two words of the accumulate form are the low and the high digit of one number. -/
theorem mac64_exact (o a b c : Word) :
    (mac64 o a b c).1.toNat + 2 ^ 64 * (mac64 o a b c).2.toNat = o.toNat + a.toNat * b.toNat + c.toNat := by
  obtain ⟨low, high⟩ := mac64_toNat o a b c
  rw [low, high, Nat.mod_add_div]

/-- Settles O23: sum and carry are remainder and quotient of the sum by `2^64`, and the quotient is a bit. -/
theorem limbAdderIsExact : Obligations.LimbAdderIsExact := by
  intro a b cin
  obtain ⟨sum, carry⟩ := adc64_toNat a b cin
  refine ⟨by rw [sum, carry, Nat.mod_add_div], ?_⟩
  cases hc : (adc64 a b cin).2 with
  | false => rw [hc, Bool.toNat_false] at carry; simp only [Bool.false_eq_true, false_iff]; omega
  | true => rw [hc, Bool.toNat_true] at carry; simp only [true_iff]; omega

/-- Settles O24: the subtractor's equation on naturals, read over the integers; the difference is a word. -/
theorem limbSubtractorIsExact : Obligations.LimbSubtractorIsExact := by
  intro a b bin
  have equation := sbb64_toNat a b bin
  have bound := (sbb64 a b bin).1.isLt
  constructor <;> omega

/-- Settles O25: MUL64 is MAC64 with nothing to add; the sample is one product. -/
theorem limbMultiplierIsExact : Obligations.LimbMultiplierIsExact := by
  refine ⟨fun a b => ?_, mac64_exact, by decide⟩
  simpa [mul64_eq_mac64] using mac64_exact 0#64 a b 0#64

/-! The functions on limb vectors, as `limbs(n)` -/

theorem addV_eq_limbsOf (a b : Value) : addV a b = limbsOf (a.val + b.val) :=
  eq_limbsOf (addV_valid a b) (addV_val a b)

theorem mulV_eq_limbsOf (a b : Value) : mulV a b = limbsOf (a.val * b.val) :=
  eq_limbsOf (mulV_valid a b) (mulV_val a b)

theorem subV_eq_limbsOf {a b : Value} (hb : b.valid = true) (h : b.val ≤ a.val) :
    subV a b = limbsOf (a.val - b.val) :=
  eq_limbsOf (subV_valid a b) (subV_val hb h)

theorem addV_comm (a b : Value) : addV a b = addV b a := by
  rw [addV_eq_limbsOf, addV_eq_limbsOf, Nat.add_comm]

theorem mulV_comm (a b : Value) : mulV a b = mulV b a := by
  rw [mulV_eq_limbsOf, mulV_eq_limbsOf, Nat.mul_comm]

theorem addV_assoc (a b c : Value) : addV (addV a b) c = addV a (addV b c) := by
  rw [addV_eq_limbsOf _ c, addV_eq_limbsOf a (addV b c), addV_val, addV_val, Nat.add_assoc]

theorem mulV_assoc (a b c : Value) : mulV (mulV a b) c = mulV a (mulV b c) := by
  rw [mulV_eq_limbsOf _ c, mulV_eq_limbsOf a (mulV b c), mulV_val, mulV_val, Nat.mul_assoc]

theorem mulV_addV (a b c : Value) : mulV a (addV b c) = addV (mulV a b) (mulV a c) := by
  rw [mulV_eq_limbsOf a (addV b c), addV_eq_limbsOf (mulV a b), addV_val, mulV_val, mulV_val, Nat.mul_add]

/-- SUB's precondition is the order of the numbers. -/
theorem compareV_bne_lt {a b : Value} (ha : a.valid = true) (hb : b.valid = true) :
    (compareV a b != .lt) = decide (b.val ≤ a.val) := by
  rw [compareV_eq ha hb, Bool.eq_iff_iff, bne_iff_ne, ne_eq, compare_lt_iff_lt, not_lt, decide_eq_true_iff]

/-! Two value sources, and the ends of a command -/

section
variable {s t : State} {rd ra rb : VReg} {x : Value} {ok : Bool} {c : FaultCode} {k : Value → Value → Res}

theorem withValue_pair_valid (va : (s.readV ra).valid = true) (vb : (s.readV rb).valid = true) :
    (withValue ra s fun a => withValue rb s fun b => k a b) = k (s.readV ra) (s.readV rb) := by
  rw [withValue_valid va, withValue_valid vb]

theorem withValue_pair_invalid (h : (s.readV ra).valid = false ∨ (s.readV rb).valid = false) :
    (withValue ra s fun a => withValue rb s fun b => k a b) = .next (s.raise .invariant) := by
  cases va : (s.readV ra).valid with
  | false => exact withValue_invalid va
  | true =>
    rw [withValue_valid va]
    exact withValue_invalid (h.resolve_left (by simp [va]))

/-- Two sources may be examined in either order: both invalid ones raise the same fault. -/
theorem withValue_comm :
    (withValue ra s fun a => withValue rb s fun b => k a b) =
      withValue rb s fun b => withValue ra s fun a => k a b := by
  unfold withValue
  split_ifs <;> rfl

/-- The capacity check on limbs is the one on numbers, where LMAX is legal. -/
theorem overLimbs_limbsOf (legal : s.lmaxLegal = true) (n : Nat) : s.overLimbs (limbsOf n).len = !s.holds n := by
  rw [State.lmaxLegal, bne_iff_ne] at legal
  unfold State.overLimbs State.holds
  cases hl : s.params.lmax with
  | none => rfl
  | some l =>
    have hpos : 0 < l := Nat.pos_of_ne_zero fun h0 => legal (h0 ▸ hl)
    have hfits : (limbsOf n).len ≤ l ↔ n < 2 ^ (64 * l) := by rw [len_le_iff (limbsOf_valid n) hpos, limbsOf_val]
    simp only [← hfits, ← decide_not, not_le]

theorem finishChecked_limbsOf (legal : s.lmaxLegal = true) (n : Nat) :
    (s.holds n = true → finishChecked rd (limbsOf n) s = .next (s.writeV rd (limbsOf n)).complete) ∧
    (s.holds n = false → finishChecked rd (limbsOf n) s = .next (s.raise .capacity)) := by
  rw [finishChecked, overLimbs_limbsOf legal, Bool.not_not]
  refine ⟨fun held => ?_, fun exceeded => ?_⟩
  · rw [held, require_true, finishV]
  · rw [exceeded, require_false]

/-- An operation on two sources that is `num` on their numbers, ended by the capacity check. -/
theorem withValue_pair_finishChecked {op : Value → Value → Value} {num : Nat → Nat → Nat}
    (hop : ∀ a b, op a b = limbsOf (num a.val b.val)) (legal : s.lmaxLegal = true) :
    let n := num (s.readV ra).val (s.readV rb).val
    let answer := withValue ra s fun a => withValue rb s fun b => finishChecked rd (op a b) s
    ((s.readV ra).valid = false ∨ (s.readV rb).valid = false → answer = .next (s.raise .invariant)) ∧
    ((s.readV ra).valid = true → (s.readV rb).valid = true →
      (s.holds n = true → answer = .next (s.writeV rd (limbsOf n)).complete) ∧
      (s.holds n = false → answer = .next (s.raise .capacity))) := by
  refine ⟨withValue_pair_invalid, fun va vb => ?_⟩
  rw [withValue_pair_valid va vb, hop]
  exact finishChecked_limbsOf legal _

/-- A checked command that ends in IDLE passed its check and wrote its result. -/
theorem require_finishV_idle (h : require ok c s (finishV rd x s) = .next t) (idle : t.mode = .idle) :
    ok = true ∧ t = (s.writeV rd x).complete := by
  rcases require_next h with ⟨passed, written⟩ | ⟨-, rfl⟩
  · exact ⟨passed, finishV_next.1 written⟩
  · cases idle

end

/-- Settles O34: ADD's result is `limbs(a + b)`, ended by the capacity check. -/
theorem addResult : Obligations.AddResult := fun _ _ _ _ =>
  withValue_pair_finishChecked (num := (· + ·)) addV_eq_limbsOf

/-- Settles O35: SUB's precondition is the order of the numbers, and its result is then `limbs(a - b)`. -/
theorem subResult : Obligations.SubResult := by
  intro s rd ra rb
  rw [exec, execSub]
  refine ⟨withValue_pair_invalid, fun va vb => ?_⟩
  rw [withValue_pair_valid va vb, compareV_bne_lt va vb]
  refine ⟨fun enough => ?_, fun short => ?_⟩
  · rw [decide_eq_true enough, require_true, subV_eq_limbsOf vb enough, finishV]
  · rw [decide_eq_false short.not_ge, require_false]

/-- Settles O36: MUL's result is `limbs(a * b)`, ended by the capacity check. -/
theorem mulResult : Obligations.MulResult := fun _ _ _ _ =>
  withValue_pair_finishChecked (num := (· * ·)) mulV_eq_limbsOf

/-! Laws between the commands -/

section
variable {s t : State} {rd ra rb : VReg}

theorem exec_add_idle (va : (s.readV ra).valid = true) (vb : (s.readV rb).valid = true)
    (h : exec (.add rd ra rb) s = .next t) (idle : t.mode = .idle) :
    t = (s.writeV rd (limbsOf ((s.readV ra).val + (s.readV rb).val))).complete := by
  rw [exec, execAdd, withValue_pair_valid va vb, addV_eq_limbsOf, finishChecked] at h
  exact (require_finishV_idle h idle).2

theorem exec_sub_idle (va : (s.readV ra).valid = true) (vb : (s.readV rb).valid = true)
    (h : exec (.sub rd ra rb) s = .next t) (idle : t.mode = .idle) :
    (s.readV rb).val ≤ (s.readV ra).val ∧
      t = (s.writeV rd (limbsOf ((s.readV ra).val - (s.readV rb).val))).complete := by
  rw [exec, execSub, withValue_pair_valid va vb, compareV_bne_lt va vb] at h
  obtain ⟨enough, written⟩ := require_finishV_idle h idle
  rw [decide_eq_true_iff] at enough
  exact ⟨enough, subV_eq_limbsOf vb enough ▸ written⟩

/-- `(a - b) + b = a`: the second command reads back the difference and the untouched subtrahend. -/
theorem exec_add_of_sub (hne : rd ≠ rb) (legal : s.lmaxLegal = true) (va : (s.readV ra).valid = true)
    (vb : (s.readV rb).valid = true) (hold : s.holds (s.readV ra).val = true)
    (h : exec (.sub rd ra rb) s = .next t) (idle : t.mode = .idle) :
    exec (.add rd rd rb) t = .next (t.writeV rd (s.readV ra)) := by
  obtain ⟨enough, rfl⟩ := exec_sub_idle va vb h idle
  obtain ⟨-, checked⟩ :=
    addResult (s.writeV rd (limbsOf ((s.readV ra).val - (s.readV rb).val))).complete rd rd rb legal
  simp only [State.complete_readV, State.writeV_readV, if_true, if_neg hne.symm, limbsOf_val,
    Nat.sub_add_cancel enough, limbsOf_of_val va] at checked
  obtain ⟨fits, -⟩ := checked (limbsOf_valid _) vb
  exact fits hold

/-- `(a + b) - b = a`: the sum is never less than what was added. -/
theorem exec_sub_of_add (hne : rd ≠ rb) (va : (s.readV ra).valid = true) (vb : (s.readV rb).valid = true)
    (h : exec (.add rd ra rb) s = .next t) (idle : t.mode = .idle) :
    exec (.sub rd rd rb) t = .next (t.writeV rd (s.readV ra)) := by
  obtain rfl := exec_add_idle va vb h idle
  obtain ⟨-, ordered⟩ := subResult (s.writeV rd (limbsOf ((s.readV ra).val + (s.readV rb).val))).complete rd rd rb
  simp only [State.complete_readV, State.writeV_readV, if_true, if_neg hne.symm, limbsOf_val,
    Nat.add_sub_cancel, limbsOf_of_val va] at ordered
  obtain ⟨enough, -⟩ := ordered (limbsOf_valid _) vb
  exact enough (Nat.le_add_left _ _)

end

theorem exec_add_comm (s : State) (rd ra rb : VReg) : exec (.add rd ra rb) s = exec (.add rd rb ra) s := by
  rw [exec, execAdd, exec, execAdd, withValue_comm]
  simp only [addV_comm]

theorem exec_mul_comm (s : State) (rd ra rb : VReg) : exec (.mul rd ra rb) s = exec (.mul rd rb ra) s := by
  rw [exec, execMul, exec, execMul, withValue_comm]
  simp only [mulV_comm]

/-- Settles O56: the round trips from the results of ADD and SUB, the other laws from those of the numbers. -/
theorem arithmeticLaws : Obligations.ArithmeticLaws :=
  ⟨fun _ _ _ _ _ => exec_add_of_sub, fun _ _ _ _ _ => exec_sub_of_add,
    fun s rd ra rb => ⟨exec_add_comm s rd ra rb, exec_mul_comm s rd ra rb⟩,
    fun a b c => ⟨addV_assoc a b c, mulV_assoc a b c, mulV_addV a b c⟩⟩

end Sys2Proof.Machine
end

section
/-! The shifts (42_shift): the two commands, and the round trips between them. -/
namespace Sys2Proof.Machine

theorem shlV_eq_limbsOf (a : Value) (k : Nat) : shlV a k = limbsOf (a.val * 2 ^ k) :=
  eq_limbsOf (shlV_valid a k) (shlV_val a k)

theorem shrV_eq_limbsOf (a : Value) (k : Nat) : shrV a k = limbsOf (a.val / 2 ^ k) :=
  eq_limbsOf (shrV_valid a k) (shrV_val a k)

/-- SHL's precondition, read on the number: it is zero, or its bit length and the count stay within the capacity. -/
theorem shl_precondition {a : Value} (ha : a.valid = true) (s : State) (k : Nat) :
    (a = Value.zero || !s.overBits (bitLen a + k)) =
      decide ¬(a.val ≠ 0 ∧ s.overBits (Nat.log2 a.val + 1 + k) = true) := by
  by_cases h0 : a.val = 0
  · simp [eq_zero_iff ha, h0]
  · simp [eq_zero_iff ha, bitLen_eq ha, h0]

/-- Settles O37: SHL's precondition is that on the number, and its result is `limbs(a * 2^k)`. -/
theorem shlResult : Obligations.ShlResult := by
  intro s rd ra rb
  rw [exec, execShl]
  refine ⟨withValue_invalid, fun valid => ?_⟩
  rw [withValue_valid valid, shl_precondition valid, shlV_eq_limbsOf]
  refine ⟨fun fits => ?_, fun tooLong => ?_⟩
  · rw [decide_eq_true fits, require_true, finishV]
  · rw [decide_eq_false (not_not_intro tooLong), require_false]

/-- Settles O38: SHR has no check beyond its source's validity, and its result is `limbs(a / 2^k)`. -/
theorem shrResult : Obligations.ShrResult := by
  intro s rd rb
  rw [exec, execShr]
  refine ⟨withValue_invalid, fun valid => ?_⟩
  rw [withValue_valid valid, shrV_eq_limbsOf, finishV]

section
variable {s t : State} {rd ra : VReg} {rb : SReg}

theorem exec_shl_idle (valid : (s.readV ra).valid = true) (h : exec (.shl rd ra rb) s = .next t)
    (idle : t.mode = .idle) :
    t = (s.writeV rd (limbsOf ((s.readV ra).val * 2 ^ (s.readS rb).toNat))).complete := by
  rw [exec, execShl, withValue_valid valid, shlV_eq_limbsOf] at h
  exact (require_finishV_idle h idle).2

/-- `(a << k) >> k = a`: SHL leaves the count in place, and SHR divides its multiple of `2^k` exactly. -/
theorem exec_shr_of_shl (valid : (s.readV ra).valid = true) (h : exec (.shl rd ra rb) s = .next t)
    (idle : t.mode = .idle) : exec (.shr rd rb) t = .next (t.writeV rd (s.readV ra)) := by
  obtain rfl := exec_shl_idle valid h idle
  obtain ⟨-, shifted⟩ :=
    shrResult (s.writeV rd (limbsOf ((s.readV ra).val * 2 ^ (s.readS rb).toNat))).complete rd rb
  simp only [State.complete_readV, State.writeV_readV, if_true, State.complete_readS, State.writeV_readS, limbsOf_val,
    Nat.mul_div_cancel _ (Nat.two_pow_pos _), limbsOf_of_val valid] at shifted
  exact shifted (limbsOf_valid _)

end

/-- `(a >> k) << k` is the multiple of `2^k` below `a`. -/
theorem shlV_shrV_val (a : Value) (k : Nat) : (shlV (shrV a k) k).val = a.val - a.val % 2 ^ k := by
  rw [shlV_val, shrV_val, Nat.mul_comm, ← Nat.sub_eq_of_eq_add (Nat.div_add_mod a.val (2 ^ k)).symm]

/-- Settles O57: the round trip through the commands, and the loss in the other order on vectors. -/
theorem shiftRoundTrip : Obligations.ShiftRoundTrip :=
  ⟨fun _ _ _ _ _ => exec_shr_of_shl, shlV_shrV_val⟩

end Sys2Proof.Machine
end

section
/-! Remainder, comparison and bit utilities (43_rem_cmp_bits): the functions on numbers, and the commands. -/
namespace Sys2Proof.Machine

/-! The functions on limb vectors, as numbers -/

theorem remV_eq_limbsOf {a m : Value} (ha : a.valid = true) (hm : m.valid = true) (h0 : m.val ≠ 0) :
    remV a m = limbsOf (a.val % m.val) := by
  obtain ⟨valid, value⟩ := remV_spec ha hm h0
  exact eq_limbsOf valid value

theorem decV_eq_limbsOf {a : Value} (h0 : a.val ≠ 0) : decV a = limbsOf (a.val - 1) :=
  eq_limbsOf (decV_valid a) (decV_val h0)

theorem orWordV_eq_limbsOf {a : Value} (ha : a.valid = true) (w : Word) :
    orWordV a w = limbsOf (a.val - a.low.toNat + (a.low ||| w).toNat) :=
  eq_limbsOf (orWordV_valid ha w) (orWordV_val a w)

theorem low_le_val (a : Value) : a.low.toNat ≤ a.val := Nat.le_add_right _ _

/-- ORing sets bits of limb 0 and clears none. -/
theorem val_le_orWordV_val (a : Value) (w : Word) : a.val ≤ (orWordV a w).val := by
  have grows : a.low.toNat ≤ (a.low ||| w).toNat := by
    rw [BitVec.toNat_or]
    exact Nat.left_le_or
  rw [orWordV_val]
  have := low_le_val a
  omega

/-- The result word of a comparison, by the order of the numbers (43_rem_cmp_bits R162). -/
theorem orderWord_compare (m n : Nat) :
    orderWord (compare m n) = if m = n then 0#64 else if n < m then 1#64 else 2#64 := by
  rcases Nat.lt_trichotomy m n with less | rfl | greater
  · rw [compare_lt_iff_lt.2 less, if_neg less.ne, if_neg less.not_gt, orderWord]
  · rw [compare_eq_iff_eq.2 rfl, if_pos rfl, orderWord]
  · rw [compare_gt_iff_gt.2 greater, if_neg greater.ne', if_pos greater, orderWord]

theorem compareWord_eq_compareV {a : Value} (ha : a.valid = true) (w : Word) :
    compareWord a w = compareV a (Value.ofWord w) := by
  rw [compareWord_eq ha, compareV_eq ha (ofWord_valid w), ofWord_val]

theorem boolWord_parityV (a : Value) : boolWord (parityV a) = BitVec.ofNat 64 (a.val % 2) := by
  rw [parityV_eq]
  rcases Nat.mod_two_eq_zero_or_one a.val with even | odd
  · rw [even, boolWord, if_neg (by decide)]
  · rw [odd, boolWord, if_pos (by decide)]

/-- The trailing-zero count is the largest exponent of a power of two that divides the value. -/
theorem two_pow_tzCount_dvd {a : Value} (h0 : a.val ≠ 0) :
    2 ^ tzCount a ∣ a.val ∧ ¬2 ^ (tzCount a + 1) ∣ a.val := by
  obtain ⟨d, hval, odd⟩ := tzCount_spec a h0
  refine ⟨⟨d, by rw [Nat.mul_comm, ← hval]⟩, fun hdvd => ?_⟩
  have hd : 2 ∣ d := by
    rw [hval, Nat.pow_succ, Nat.mul_comm d] at hdvd
    exact Nat.dvd_of_mul_dvd_mul_left (Nat.two_pow_pos _) hdvd
  omega

theorem tzCount_zero : tzCount Value.zero = 64 := rfl

/-! The cells -/

/-- On one limb the scan of TZCNT is CTZ64. -/
theorem tzCount_ofWord {x : Word} (h : x ≠ 0#64) : tzCount (Value.ofWord x) = ctz64 x := by
  rw [tzCount, Value.ofWord, Value.limbs, tzScan, if_pos h, Nat.zero_mul, Nat.zero_add]

/-- The bits from `64 - CLZ64` up are zero: the word is below that power of two. -/
theorem getLsbD_above_clz64 {x : Word} {j : Nat} (h : x ≠ 0#64) (hj : 64 - clz64 x ≤ j) : x.getLsbD j = false := by
  rw [clz64, if_neg h] at hj
  have within : Nat.log2 x.toNat < 64 := (Nat.log2_lt (toNat_pos_of_ne h).ne').2 x.isLt
  have above : Nat.log2 x.toNat + 1 ≤ j := by omega
  exact Nat.testBit_lt_two_pow (Nat.lt_log2_self.trans_le (Nat.pow_le_pow_right two_pos above))

/-- Settles O26: CLZ64 is its formula, above which the word has no bit; CTZ64 is the trailing-zero count of the
one-limb vector. -/
theorem wordBitCounts : Obligations.WordBitCounts := by
  refine ⟨rfl, by decide, fun x hx => ⟨if_neg hx, fun j => getLsbD_above_clz64 hx, ?_⟩⟩
  have h0 : (Value.ofWord x).val ≠ 0 := by
    rw [ofWord_val]
    exact (toNat_pos_of_ne hx).ne'
  rw [← tzCount_ofWord hx, ← ofWord_val x]
  exact two_pow_tzCount_dvd h0

/-! The commands -/

section
variable {s : State} {m : Value} {c : FaultCode} {e : Res}

theorem require_ne_zero (hm : m.valid = true) (h0 : m.val ≠ 0) : require (m ≠ Value.zero) c s e = e := by
  rw [decide_eq_true (mt (eq_zero_iff hm).1 h0), require_true]

theorem require_ne_zero_fails (hm : m.valid = true) (h0 : m.val = 0) :
    require (m ≠ Value.zero) c s e = .next (s.raise c) := by
  rw [decide_eq_false (not_not_intro ((eq_zero_iff hm).2 h0)), require_false]

end

/-- Settles O39: the divisor is checked first, and Rem's result is `limbs(a mod b)`. -/
theorem remResult : Obligations.RemResult := by
  intro s rd ra rb
  rw [exec, execRem]
  refine ⟨withValue_pair_invalid, fun va vb => ?_⟩
  rw [withValue_pair_valid va vb]
  refine ⟨fun h0 => ⟨Nat.mod_lt _ (Nat.pos_of_ne_zero h0), ?_⟩, require_ne_zero_fails vb⟩
  rw [require_ne_zero vb h0, remV_eq_limbsOf va vb h0, finishV]

/-- Settles O40: Compare is the order of the numbers, and the result word follows that order. -/
theorem cmpResult : Obligations.CmpResult := by
  intro s rd ra rb
  rw [exec, execCmp]
  refine ⟨withValue_pair_invalid, fun va vb => ⟨?_, compareV_eq va vb⟩⟩
  rw [withValue_pair_valid va vb, compareV_eq va vb, orderWord_compare, finishS]

/-- Settles O41: CompareWord is the order of the number and the word, which is Compare with the wrapped word. -/
theorem cmpwResult : Obligations.CmpwResult := by
  intro s rd ra rb
  rw [exec, execCmpw]
  refine ⟨withValue_invalid, fun valid => ⟨?_, compareWord_eq_compareV valid _⟩⟩
  rw [withValue_valid valid, compareWord_eq valid, orderWord_compare, finishS]

/-- Settles O42: the count BITLEN finishes with is the bit length of the number. -/
theorem bitlenResult : Obligations.BitlenResult := by
  intro s rd ra
  rw [exec, execBitlen]
  refine ⟨withValue_invalid, fun valid => ?_⟩
  rw [withValue_valid valid, bitLen_eq valid]
  exact ⟨finishCount_fits, finishCount_tooWide⟩

/-- Settles O43: the count TZCNT finishes with is the largest exponent of a power of two that divides the value. -/
theorem tzcntResult : Obligations.TzcntResult := by
  intro s rd ra
  rw [exec, execTzcnt]
  refine ⟨withValue_invalid, fun valid => ⟨tzCount (s.readV ra), fun h0 => ?_, two_pow_tzCount_dvd, ?_⟩⟩
  · rw [(eq_zero_iff valid).2 h0, tzCount_zero]
  · rw [withValue_valid valid]
    exact ⟨finishCount_fits, finishCount_tooWide⟩

/-- Settles O44: PARITY has no check beyond its source's validity, and its result word is the value modulo 2. -/
theorem parityResult : Obligations.ParityResult := by
  intro s rd ra
  rw [exec, execParity]
  refine ⟨withValue_invalid, fun valid => ?_⟩
  rw [withValue_valid valid, boolWord_parityV, finishS]

/-- Settles O45: zero is the one value without a predecessor, and Dec's result is `limbs(a - 1)`. -/
theorem decResult : Obligations.DecResult := by
  intro s rd
  rw [exec, execDec]
  refine ⟨withValue_invalid, fun valid => ?_⟩
  rw [withValue_valid valid]
  refine ⟨fun h0 => ?_, require_ne_zero_fails valid⟩
  rw [require_ne_zero valid h0, decV_eq_limbsOf h0, finishV]

/-- Settles O46: OrWord leaves the limbs above limb 0 and the normalization as they are, so its result is the vector of
its number. -/
theorem orwResult : Obligations.OrwResult := by
  intro s rd rb
  rw [exec, execOrw]
  refine ⟨withValue_invalid, fun valid => ?_⟩
  rw [withValue_valid valid, ← orWordV_eq_limbsOf valid]
  exact ⟨rfl, rfl, val_le_orWordV_val _ _⟩

end Sys2Proof.Machine
end

section
/-! Modular exponentiation (44_modpow): ModPow on numbers, and the commands. -/
namespace Sys2Proof.Machine

theorem modPow_eq_limbsOf {b e m : Value} (hb : b.valid = true) (he : e.valid = true) (hm : m.valid = true)
    (h0 : m.val ≠ 0) : modPow b e m = limbsOf (if e.val = 0 then 1 else b.val ^ e.val % m.val) := by
  obtain ⟨valid, value⟩ := modPow_spec hb he hm h0
  exact eq_limbsOf valid value

section
variable {s : State} {rd ra rb rc : VReg} {b e m : Value} {k : Value → Value → Value → Res}

theorem withValue_triple_valid (va : (s.readV ra).valid = true) (vb : (s.readV rb).valid = true)
    (vc : (s.readV rc).valid = true) :
    (withValue ra s fun a => withValue rb s fun b => withValue rc s fun c => k a b c) =
      k (s.readV ra) (s.readV rb) (s.readV rc) := by
  rw [withValue_valid va, withValue_pair_valid vb vc]

theorem withValue_triple_invalid
    (h : (s.readV ra).valid = false ∨ (s.readV rb).valid = false ∨ (s.readV rc).valid = false) :
    (withValue ra s fun a => withValue rb s fun b => withValue rc s fun c => k a b c) =
      .next (s.raise .invariant) := by
  cases va : (s.readV ra).valid with
  | false => exact withValue_invalid va
  | true =>
    rw [withValue_valid va]
    exact withValue_pair_invalid (h.resolve_left (by simp [va]))

/-- How MODPOW and MODPOWW end on normalized operands, wherever the exponent comes from: the modulus is checked first,
whatever the exponent (44_modpow R191, R192). -/
theorem require_finishV_modPow (hb : b.valid = true) (he : e.valid = true) (hm : m.valid = true) :
    (m.val ≠ 0 → require (m ≠ Value.zero) .divZero s (finishV rd (modPow b e m) s) =
      .next (s.writeV rd (limbsOf (if e.val = 0 then 1 else b.val ^ e.val % m.val))).complete) ∧
    (m.val = 0 → require (m ≠ Value.zero) .divZero s (finishV rd (modPow b e m) s) = .next (s.raise .divZero)) := by
  refine ⟨fun h0 => ?_, require_ne_zero_fails hm⟩
  rw [require_ne_zero hm h0, modPow_eq_limbsOf hb he hm h0, finishV]

end

/-- Settles O47: the three sources are asserted first, then the modulus is checked, and ModPow's result is the vector of
the power's remainder. -/
theorem modpowResult : Obligations.ModpowResult := by
  intro s rd ra rb rc
  rw [exec, execModpow]
  refine ⟨withValue_triple_invalid, fun va vb vc => ?_⟩
  rw [withValue_triple_valid va vb vc]
  exact require_finishV_modPow va vb vc

/-- Settles O48: the exponent is the wrapped word, which is normalized and has the word's number. -/
theorem modpowwResult : Obligations.ModpowwResult := by
  intro s rd ra rb rc
  rw [exec, execModpoww, ← ofWord_val (s.readS rb)]
  refine ⟨withValue_pair_invalid, fun va vc => ?_⟩
  rw [withValue_pair_valid va vc]
  exact require_finishV_modPow va (ofWord_valid _) vc

end Sys2Proof.Machine
end

section
/-! The witnesses of the primality tester and where they lie (45_miller_rabin R203). -/
namespace Sys2Proof.Machine

variable {n b : Nat}

/-- The smallest candidate a round is run on has three bits, and an odd one is no power of two. -/
theorem two_pow_log2_lt_of_odd (h5 : 5 ≤ n) (hodd : n % 2 = 1) : 2 ≤ Nat.log2 n ∧ 2 ^ Nat.log2 n < n := by
  have hlog : 2 ≤ Nat.log2 n := (Nat.le_log2 (by omega)).2 (by omega)
  have heven : 2 ^ Nat.log2 n % 2 = 0 := Nat.dvd_iff_mod_eq_zero.1 (dvd_pow_self 2 (by omega))
  have hle : 2 ^ Nat.log2 n ≤ n := Nat.log2_self_le (by omega)
  exact ⟨hlog, by omega⟩

theorem witnessAt_bounds (hb : 0 < b) (j : Nat) (r : Rbs) : 2 ^ (b - 1) ≤ witnessAt b j r ∧ witnessAt b j r < 2 ^ b :=
  randValue_bounds hb _

/-- A witness is none of 0, 1, n-1 (45_miller_rabin R203). -/
theorem witnessAt_mem_range (h5 : 5 ≤ n) (hodd : n % 2 = 1) (j : Nat) (r : Rbs) :
    2 ≤ witnessAt (Nat.log2 n) j r ∧ witnessAt (Nat.log2 n) j r ≤ n - 2 := by
  obtain ⟨hlog, hpow⟩ := two_pow_log2_lt_of_odd h5 hodd
  obtain ⟨lower, upper⟩ := witnessAt_bounds (show 0 < Nat.log2 n by omega) j r
  have two_le : 2 ^ 1 ≤ 2 ^ (Nat.log2 n - 1) := Nat.pow_le_pow_right two_pos (by omega)
  omega

/-- Settles O50: the bounds of RandValue with `bl - 1` bits, and the words drawn. -/
theorem witnessesLieInRange : Obligations.WitnessesLieInRange := by
  intro N r valid h5 hodd
  have hbl : bitLen N = Nat.log2 N.val + 1 := by rw [bitLen_eq valid, if_neg (by omega)]
  have hlog := (two_pow_log2_lt_of_odd h5 hodd).1
  obtain ⟨lower, upper⟩ := witnessAt_bounds (show 0 < Nat.log2 N.val by omega) 0 r
  obtain ⟨two_le, le_sub⟩ := witnessAt_mem_range h5 hodd 0 r
  rw [hbl]
  exact ⟨rfl, lower, upper, two_le, le_sub, by rw [randValue_rbs, drawMany_drawn]⟩

end Sys2Proof.Machine
end

section
/-! MillerRabin on numbers: its verdict and the rounds it starts (45_miller_rabin R200, R201), and MRTEST. -/
namespace Sys2Proof.Machine

section
variable {s k bl : Nat} {N nm1 D : Value} {r : Rbs}

/-- The witness loop stops after the first round that rejects and else runs all its rounds (45_miller_rabin R200). -/
theorem mrRounds_outcome
    (round : ∀ A : Value, A.valid = true → (mrRound N nm1 D s A = true ↔ StrongRound N.val A.val)) :
    (mrRounds N nm1 D s bl k r = (true, rbsAfter (bl - 1) k r) ∧
        ∀ j < k, StrongRound N.val (witnessAt (bl - 1) j r)) ∨
      ∃ i < k, mrRounds N nm1 D s bl k r = (false, rbsAfter (bl - 1) (i + 1) r) ∧
        ¬StrongRound N.val (witnessAt (bl - 1) i r) ∧ ∀ j < i, StrongRound N.val (witnessAt (bl - 1) j r) := by
  induction k generalizing r with
  | zero => exact .inl ⟨rfl, nofun⟩
  | succ k ih =>
    have first := round _ (randValue_valid (bl - 1) r)
    rw [mrRounds]
    by_cases pass : StrongRound N.val (randValue (bl - 1) r).1.val
    · rw [if_pos (first.2 pass)]
      rcases ih (r := (randValue (bl - 1) r).2) with ⟨eq, all⟩ | ⟨i, hi, eq, fails, before⟩
      · exact .inl ⟨eq, Nat.forall_lt_succ_left.2 ⟨pass, all⟩⟩
      · exact .inr ⟨i + 1, by omega, eq, fails, Nat.forall_lt_succ_left.2 ⟨pass, before⟩⟩
    · rw [if_neg (mt first.1 pass)]
      exact .inr ⟨0, by omega, rfl, pass, nofun⟩

/-- MillerRabin by the tests it makes on the number, before any draw (45_miller_rabin R200, steps 1 and 2). -/
theorem millerRabin_eq (valid : N.valid = true) : millerRabin N k r =
    if N.val < 2 then (false, r) else if N.val = 2 then (true, r) else if N.val = 3 then (true, r)
    else if N.val % 2 = 0 then (false, r)
    else mrRounds N (decV N) (shrV (decV N) (tzCount (decV N))) (tzCount (decV N)) (Nat.log2 N.val + 1) k r := by
  rw [millerRabin, compareWord_eq valid, compareWord_eq valid, parityV_eq]
  simp only [compare_lt_iff_lt, compare_eq_iff_eq, BitVec.toNat_ofNat]
  by_cases h : N.val < 2
  · simp [h]
  · have hbl : bitLen N = Nat.log2 N.val + 1 := by rw [bitLen_eq valid, if_neg (by omega)]
    simp [hbl]

theorem millerRabin_small (valid : N.valid = true) (h : N.val < 5 ∨ N.val % 2 = 0) :
    millerRabin N k r = (decide (N.val = 2 ∨ N.val = 3), r) := by
  rw [millerRabin_eq valid]
  split_ifs with lt two three even
  · rw [decide_eq_false (by omega)]
  · rw [decide_eq_true (.inl two)]
  · rw [decide_eq_true (.inr three)]
  · rw [decide_eq_false (by omega)]
  · omega

/-- The round of an odd number from 5 on, with the `d` and `s` MillerRabin takes from `n - 1`. -/
theorem mrRound_iff_strongRound (valid : N.valid = true) (h5 : 5 ≤ N.val) (hodd : N.val % 2 = 1) (A : Value)
    (hA : A.valid = true) :
    mrRound N (decV N) (shrV (decV N) (tzCount (decV N))) (tzCount (decV N)) A = true ↔ StrongRound N.val A.val := by
  have hdec : (decV N).val = N.val - 1 := decV_val (by omega)
  obtain ⟨d, hd, d_odd⟩ := tzCount_spec (decV N) (by omega)
  have hshr : (shrV (decV N) (tzCount (decV N))).val = d := by
    rw [shrV_val, hd, Nat.mul_div_cancel _ (by positivity)]
  have hs : tzCount (decV N) ≠ 0 := fun h0 => by rw [h0] at hd; omega
  exact mrRound_spec valid h5 (decV_valid N) hdec (shrV_valid _ _) (hshr ▸ d_odd) (hshr ▸ hd) (by omega) hA

/-- MillerRabin on an odd number from 5 on, as its verdict, the rounds that ran and what they found. -/
theorem millerRabin_outcome (valid : N.valid = true) (h5 : 5 ≤ N.val) (hodd : N.val % 2 = 1) :
    (millerRabin N k r = (true, rbsAfter (Nat.log2 N.val) k r) ∧
        ∀ j < k, StrongRound N.val (witnessAt (Nat.log2 N.val) j r)) ∨
      ∃ i < k, millerRabin N k r = (false, rbsAfter (Nat.log2 N.val) (i + 1) r) ∧
        ¬StrongRound N.val (witnessAt (Nat.log2 N.val) i r) ∧
        ∀ j < i, StrongRound N.val (witnessAt (Nat.log2 N.val) j r) := by
  rw [millerRabin_eq valid, if_neg (by omega), if_neg (by omega), if_neg (by omega), if_neg (by omega)]
  exact mrRounds_outcome (mrRound_iff_strongRound valid h5 hodd)

/-- MillerRabin's verdict on any number, small, even or odd. -/
theorem millerRabin_accepts_iff (valid : N.valid = true) : (millerRabin N k r).1 = true ↔
    N.val = 2 ∨ N.val = 3 ∨
      (5 ≤ N.val ∧ N.val % 2 = 1 ∧ ∀ j < k, StrongRound N.val (witnessAt (Nat.log2 N.val) j r)) := by
  by_cases small : N.val < 5 ∨ N.val % 2 = 0
  · rw [millerRabin_small valid small, decide_eq_true_iff]
    omega
  · have h5 : 5 ≤ N.val := by omega
    have hodd : N.val % 2 = 1 := by omega
    rcases millerRabin_outcome (k := k) (r := r) valid h5 hodd with ⟨eq, all⟩ | ⟨i, hi, eq, fails, -⟩
    · rw [eq]
      exact iff_of_true rfl (.inr (.inr ⟨h5, hodd, all⟩))
    · rw [eq]
      refine iff_of_false Bool.false_ne_true ?_
      rintro (h2 | h3 | ⟨-, -, all⟩)
      · omega
      · omega
      · exact fails (all i hi)

end

theorem exec_mrtest {s : State} {rd : SReg} {ra : VReg} {rb : SReg} {v : Bool} {r : Rbs}
    (valid : (s.readV ra).valid = true)
    (h : millerRabin (s.readV ra) (s.readS rb).toNat s.rbs = (v, r)) :
    exec (.mrtest rd ra rb) s = .next ((s.setRbs r).writeS rd (boolWord v)).complete := by
  rw [exec, execMrtest, withValue_valid valid, h, finishS]

/-- Settles O49: no round for a number below 5 or even, and else the outcome of the witness loop. -/
theorem mrtestResult : Obligations.MrtestResult := by
  intro s rd ra rb
  refine ⟨fun invalid => ?_, fun valid => ?_⟩
  · rw [exec, execMrtest, withValue_invalid invalid]
  have verdict := millerRabin_accepts_iff (k := (s.readS rb).toNat) (r := s.rbs) valid
  by_cases small : (s.readV ra).val < 5 ∨ (s.readV ra).val % 2 = 0
  · have eq := millerRabin_small (k := (s.readS rb).toNat) (r := s.rbs) valid small
    rw [eq] at verdict
    exact ⟨_, 0, exec_mrtest valid eq, verdict, fun _ => rfl, by omega⟩
  · rcases millerRabin_outcome (k := (s.readS rb).toNat) (r := s.rbs) valid (by omega) (by omega) with
      ⟨eq, -⟩ | ⟨i, hi, eq, fails, before⟩
    · rw [eq] at verdict
      exact ⟨true, _, exec_mrtest valid eq, verdict, fun h => absurd h small, fun _ _ => ⟨fun _ => rfl, nofun⟩⟩
    · rw [eq] at verdict
      exact ⟨false, i + 1, exec_mrtest valid eq, verdict, fun h => absurd h small,
        fun _ _ => ⟨nofun, fun _ => ⟨i.succ_pos, hi, fails, before⟩⟩⟩

end Sys2Proof.Machine
end

section
/-! A round never rejects a prime (the theorem 45_miller_rabin R204 calls general knowledge). -/
namespace Sys2Proof.Machine

variable {p a e b s : Nat}

/-- Where 1 has no square roots but itself and -1, repeated squaring comes to 1 from 1 or through -1. -/
theorem eq_one_or_sq_eq_neg_one {K : Type} [CommRing K] [NoZeroDivisors K] {x : K} (h : x ^ 2 ^ s = 1) :
    x = 1 ∨ ∃ j < s, x ^ 2 ^ j = -1 := by
  induction s with
  | zero => exact .inl (by simpa using h)
  | succ s ih =>
    rw [pow_succ, pow_mul, sq_eq_one_iff] at h
    rcases h with h | h
    · exact (ih h).imp_right fun ⟨j, hj, hx⟩ => ⟨j, by omega, hx⟩
    · exact .inr ⟨s, by omega, h⟩

theorem pow_mod_eq_of_cast (hb : b < p) (h : (a : ZMod p) ^ e = (b : ZMod p)) : a ^ e % p = b := by
  rwa [← Nat.cast_pow, ZMod.natCast_eq_natCast_iff', Nat.mod_eq_of_lt hb] at h

/-- A round of a prime passes: the squares of `a^d` come to `a^(p-1) = 1`, and the integers modulo `p` are a field. -/
theorem strongRound_of_prime (hp : p.Prime) (h5 : 5 ≤ p) (ha : ¬p ∣ a) : StrongRound p a := by
  have : Fact p.Prime := ⟨hp⟩
  obtain ⟨s, d, hd, hds⟩ := Nat.exists_eq_two_pow_mul_odd (show p - 1 ≠ 0 by omega)
  have fermat : ((a : ZMod p) ^ d) ^ 2 ^ s = 1 := by
    rw [← pow_mul, mul_comm, ← hds]
    exact ZMod.pow_card_sub_one_eq_one (mt (ZMod.natCast_eq_zero_iff a p).1 ha)
  refine ⟨d, s, by rw [hds, mul_comm], Nat.odd_iff.1 hd, ?_⟩
  rcases eq_one_or_sq_eq_neg_one fermat with one | ⟨j, hj, neg⟩
  · exact .inl (pow_mod_eq_of_cast hp.one_lt (by rw [one, Nat.cast_one]))
  · refine .inr ⟨j, hj, pow_mod_eq_of_cast (by omega) ?_⟩
    rw [pow_mul, neg, Nat.cast_sub (by omega), ZMod.natCast_self]
    simp

/-- No round on a prime rejects, whatever the source answers: the witness is below the prime and not 0. -/
theorem millerRabin_accepts_prime {N : Value} {k : Nat} {r : Rbs} (valid : N.valid = true) (hp : N.val.Prime) :
    (millerRabin N k r).1 = true := by
  rw [millerRabin_accepts_iff valid]
  rcases hp.eq_two_or_odd with two | hodd
  · exact .inl two
  rcases Nat.lt_or_ge N.val 5 with lt | h5
  · have := hp.two_le
    omega
  · refine .inr (.inr ⟨h5, hodd, fun j _ => strongRound_of_prime hp h5 fun hdvd => ?_⟩)
    obtain ⟨two_le, le_sub⟩ := witnessAt_mem_range h5 hodd j r
    have le : N.val ≤ witnessAt (Nat.log2 N.val) j r := Nat.le_of_dvd (by omega) hdvd
    omega

/-- Settles O51: MRTEST finishes with MillerRabin's verdict, whatever the source has become. -/
theorem mrtestAcceptsEveryPrime : Obligations.MrtestAcceptsEveryPrime := fun _ _ _ _ valid hp =>
  ⟨_, exec_mrtest valid (Prod.ext (millerRabin_accepts_prime valid hp) rfl)⟩

end Sys2Proof.Machine
end

section
/-! The outcomes on small numbers (45_miller_rabin R204): rounds whose witnesses can be checked one by one. -/
namespace Sys2Proof.Machine

/-- With `n - 1 = d * 2^s` at hand a round is a finite check, on remainders that stay small. -/
theorem strongRound_iff {n a d s : Nat} (h : n - 1 = d * 2 ^ s) (hd : d % 2 = 1) :
    StrongRound n a ↔ a ^ d % n = 1 ∨ ∃ j < s, (a ^ d % n) ^ 2 ^ j % n = n - 1 := by
  simp only [← Nat.pow_mod, ← Nat.pow_mul]
  refine ⟨fun ⟨d', s', h', hd', pass⟩ => ?_, fun pass => ⟨d, s, h, hd, pass⟩⟩
  obtain ⟨rfl, rfl⟩ := odd_decomp_unique (h'.symm.trans h) hd' hd
  exact pass

theorem millerRabin_rejects_iff {n b k : Nat} {r : Rbs} (hb : Nat.log2 n = b) (h5 : 5 ≤ n) (hodd : n % 2 = 1) :
    (millerRabin (limbsOf n) k r).1 = false ↔ ∃ j < k, ¬StrongRound n (witnessAt b j r) := by
  rw [← Bool.not_eq_true, millerRabin_accepts_iff (limbsOf_valid n), limbsOf_val, hb, or_iff_right (by omega),
    or_iff_right (by omega), and_iff_right h5, and_iff_right hodd]
  simp only [not_forall, exists_prop]

theorem not_strongRound_nine_fifteen : ∀ a < 8, 4 ≤ a → ¬StrongRound 9 a ∧ ¬StrongRound 15 a := by
  intro a upper lower
  rw [strongRound_iff (n := 9) (d := 1) (s := 3) rfl rfl, strongRound_iff (n := 15) (d := 7) (s := 1) rfl rfl]
  revert a
  decide

/-- The liars of 561 among its witnesses, the numbers `256 + 16 * x + y` of nine bits. -/
theorem strongRound_561_iff {a : Nat} (lower : 256 ≤ a) (upper : a < 512) :
    StrongRound 561 a ↔ a ∈ [256, 305, 458, 460, 511] := by
  have liars : ∀ x < 16, ∀ y < 16, (((256 + 16 * x + y) ^ 35 % 561 = 1 ∨
      ∃ j < 4, ((256 + 16 * x + y) ^ 35 % 561) ^ 2 ^ j % 561 = 561 - 1) ↔
        256 + 16 * x + y ∈ [256, 305, 458, 460, 511]) := by decide
  have digits : 256 + 16 * ((a - 256) / 16) + (a - 256) % 16 = a := by omega
  rw [strongRound_iff (d := 35) (s := 4) rfl rfl, ← digits]
  exact liars _ (by omega) _ (by omega)

/-- Settles O52: no draw for 2, 3 and 4, no rejection of the prime 97, and the liars among the witnesses of 9, 15 (none)
and 561. -/
theorem mrtestKnownOutcomes : Obligations.MrtestKnownOutcomes := by
  intro k r
  have small : ∀ n < 5, millerRabin (limbsOf n) k r = (decide (n = 2 ∨ n = 3), r) := fun n hn => by
    rw [millerRabin_small (limbsOf_valid n) (by rw [limbsOf_val]; exact .inl hn), limbsOf_val]
  refine ⟨small 2 (by omega), small 3 (by omega), small 4 (by omega),
    millerRabin_accepts_prime (limbsOf_valid 97) (by rw [limbsOf_val]; norm_num), fun hk => ?_, ?_⟩
  · obtain ⟨lower, upper⟩ := witnessAt_bounds (show 0 < 3 by omega) 0 r
    obtain ⟨nine, fifteen⟩ := not_strongRound_nine_fifteen _ upper lower
    exact ⟨(millerRabin_rejects_iff rfl (by omega) rfl).2 ⟨0, hk, nine⟩,
      (millerRabin_rejects_iff rfl (by omega) rfl).2 ⟨0, hk, fifteen⟩⟩
  · rw [millerRabin_rejects_iff (b := 9) rfl (by omega) rfl]
    refine exists_congr fun j => and_congr_right fun _ => not_congr ?_
    obtain ⟨lower, upper⟩ := witnessAt_bounds (show 0 < 9 by omega) j r
    exact strongRound_561_iff lower upper

end Sys2Proof.Machine
end

section
/-! The candidate of an iteration of GENPRIME, its pre-filter, and what an iteration finds (46_prime_generator R220,
R222). -/
namespace Sys2Proof.Machine

section
variable {k : Nat} {r r' : Rbs} {spt : List Word} {x c : Value}

theorem or_one_eq (n : Nat) : n ||| 1 = 2 * (n / 2) + 1 := by
  have odd : (n ||| 1) % 2 = 1 := Nat.or_mod_two_eq_one.2 (.inr rfl)
  have half : (n ||| 1) / 2 = n / 2 := by rw [Nat.or_div_two, Nat.or_zero]
  omega

/-- Bit 0 of a number is bit 0 of its limb 0. -/
theorem orWordV_one_eq_limbsOf (valid : x.valid = true) : orWordV x 1#64 = limbsOf (x.val ||| 1) := by
  rw [orWordV_eq_limbsOf valid, BitVec.toNat_or, BitVec.toNat_ofNat, Nat.mod_eq_of_lt (by omega), or_one_eq,
    or_one_eq]
  have limbs : x.val = x.low.toNat + 2 ^ 64 * limbsVal x.high := rfl
  congr 1
  omega

/-- The candidate as a number: RandValue's with bit 0 set (46_prime_generator R220). -/
theorem candidate_eq (k : Nat) (r : Rbs) :
    candidate k r = (limbsOf ((randValue k r).1.val ||| 1), (randValue k r).2) := by
  rw [candidate, orWordV_one_eq_limbsOf (randValue_valid k r)]

theorem candidate_valid (k : Nat) (r : Rbs) : (candidate k r).1.valid = true := by
  rw [candidate_eq]
  exact limbsOf_valid _

theorem candidate_val (k : Nat) (r : Rbs) : (candidate k r).1.val = (randValue k r).1.val ||| 1 := by
  rw [candidate_eq, limbsOf_val]

theorem candidate_odd (k : Nat) (r : Rbs) : parityV (candidate k r).1 = true := by
  rw [parityV_eq, candidate_val, decide_eq_true_iff]
  exact Nat.or_mod_two_eq_one.2 (.inr rfl)

/-- Setting bit 0 keeps the bit length, because RandValue forced the top bit. -/
theorem candidate_bounds (hk : 0 < k) (r : Rbs) :
    2 ^ (k - 1) ≤ (candidate k r).1.val ∧ (candidate k r).1.val < 2 ^ k := by
  obtain ⟨lower, upper⟩ := randValue_bounds hk r
  rw [candidate_val]
  exact ⟨lower.trans Nat.left_le_or, Nat.or_lt_two_pow upper (Nat.one_lt_two_pow hk.ne')⟩

theorem candidate_bitLen (hk : 0 < k) (r : Rbs) : bitLen (candidate k r).1 = k := by
  obtain ⟨lower, upper⟩ := candidate_bounds hk r
  have nonzero : (candidate k r).1.val ≠ 0 := (lt_of_lt_of_le (by positivity) lower).ne'
  rw [bitLen_eq (candidate_valid k r), if_neg nonzero,
    (Nat.log2_eq_iff nonzero).2 ⟨lower, by rwa [Nat.sub_add_cancel hk]⟩, Nat.sub_add_cancel hk]

/-- With a bit count of 0 or 1 every candidate is 1 (46_prime_generator R226). -/
theorem candidate_val_of_tiny (hk : k ≤ 1) (r : Rbs) : (candidate k r).1.val = 1 := by
  obtain rfl | rfl : k = 0 ∨ k = 1 := by omega
  · rw [candidate_val, randValue_zero, zero_val, Nat.zero_or]
  · obtain ⟨lower, upper⟩ := candidate_bounds one_pos r
    omega

/-- The pre-filter is divisibility by a table entry (46_prime_generator R222), in a table without 0. -/
theorem tableDivides_iff (valid : c.valid = true) (nonzero : spt.contains 0#64 = false) :
    tableDivides spt c = true ↔ ∃ p ∈ spt, p.toNat ∣ c.val := by
  rw [tableDivides, List.any_eq_true]
  refine exists_congr fun p => and_congr_right fun hp => ?_
  have hp0 : p ≠ 0#64 := by
    rintro rfl
    simp [hp] at nonzero
  have entry : (Value.ofWord p).val ≠ 0 := by
    rw [ofWord_val]
    exact (toNat_pos_of_ne hp0).ne'
  obtain ⟨rem_valid, rem_val⟩ := remV_spec valid (ofWord_valid p) entry
  rw [decide_eq_true_iff, eq_zero_iff rem_valid, rem_val, ofWord_val, Nat.dvd_iff_mod_eq_zero]

theorem tableDivides_eq_false_iff (valid : c.valid = true) (nonzero : spt.contains 0#64 = false) :
    tableDivides spt c = false ↔ ∀ p ∈ spt, ¬p.toNat ∣ c.val := by
  rw [Bool.eq_false_iff, Ne, tableDivides_iff valid nonzero]
  simp only [not_exists, not_and]

/-! The three outcomes of GenIter for the candidate `c` drawn, `r'` the source after it (46_prime_generator R220) -/

theorem genIter_discarded (drawn : candidate k r = (c, r')) (divided : tableDivides spt c = true) :
    genIter k spt r = (none, r') := by
  rw [genIter, drawn, if_pos divided]

theorem genIter_rejected (drawn : candidate k r = (c, r')) (undivided : tableDivides spt c = false)
    (rejected : (millerRabin c 40 r').1 = false) : genIter k spt r = (none, (millerRabin c 40 r').2) := by
  rw [genIter, drawn, if_neg (ne_true_of_eq_false undivided), Config.genRounds, if_neg (ne_true_of_eq_false rejected)]

theorem genIter_accepted (drawn : candidate k r = (c, r')) (undivided : tableDivides spt c = false)
    (accepted : (millerRabin c 40 r').1 = true) : genIter k spt r = (some c, (millerRabin c 40 r').2) := by
  rw [genIter, drawn, if_neg (ne_true_of_eq_false undivided), Config.genRounds, if_pos accepted]

/-- An iteration that finds has passed the filter and the tester (46_prime_generator R220). -/
theorem genIter_found (h : (genIter k spt r).1 = some x) :
    x = (candidate k r).1 ∧ tableDivides spt x = false ∧ (millerRabin x 40 (randValue k r).2).1 = true := by
  unfold genIter at h
  split at h
  · cases h
  · rename_i divides
    obtain ⟨accepted, found⟩ := Option.ite_none_right_eq_some.1 h
    obtain rfl := Option.some.inj found
    exact ⟨rfl, Bool.eq_false_iff.2 divides, accepted⟩

/-- The tester accepts no candidate of 0 or 1 bits, the number 1. -/
theorem genIter_found_two_le (h : (genIter k spt r).1 = some x) : 2 ≤ k := by
  obtain ⟨rfl, -, accepted⟩ := genIter_found h
  rw [millerRabin_accepts_iff (candidate_valid k r)] at accepted
  by_contra tiny
  have one := candidate_val_of_tiny (k := k) (by omega) r
  omega

theorem genIter_tiny (hk : k ≤ 1) : (genIter k spt r).1 = none :=
  Option.eq_none_iff_forall_ne_some.2 fun _ h => absurd (genIter_found_two_le h) (by omega)

end

end Sys2Proof.Machine
end

section
/-! The command GENPRIME (46_prime_generator R221, R223): one turn is one iteration, begun or going on. -/
namespace Sys2Proof.Machine

section
variable {s t : State} {rd : VReg} {ra : SReg} {bits : Word}

theorem exec_genprime_goesOn (h : s.mode = .busy (some bits)) : exec (.genprime rd ra) s = genStep rd bits s := by
  rw [exec, execGenprime, h]

/-- The turn that begins reads the bit count and checks it against the capacity. -/
theorem exec_genprime_begins (h : ∀ b, s.mode ≠ .busy (some b)) : exec (.genprime rd ra) s =
    require (!s.overBits (s.readS ra).toNat) .capacity s (genStep rd (s.readS ra) s) := by
  rw [exec, execGenprime]
  split
  · exact absurd ‹_› (h _)
  all_goals rfl

/-- A turn that completes is an iteration, begun or going on. -/
theorem exec_genprime_idle
    (h : s.mode = .busy (some bits) ∨ ((∀ b, s.mode ≠ .busy (some b)) ∧ s.readS ra = bits))
    (ht : exec (.genprime rd ra) s = .next t) (idle : t.mode = .idle) : genStep rd bits s = .next t := by
  rcases h with goes | ⟨begins, rfl⟩
  · rwa [exec_genprime_goesOn goes] at ht
  · rw [exec_genprime_begins begins] at ht
    rcases require_next ht with ⟨-, ht⟩ | ⟨-, rfl⟩
    · exact ht
    · cases idle

section
variable {r : Rbs} {c : Value}

/-- An iteration that retries leaves the CORE BUSY with the bit count, and only the source advanced. -/
theorem genStep_retry (nonzero : s.params.spt.contains 0#64 = false)
    (h : genIter bits.toNat s.params.spt s.rbs = (none, r)) :
    genStep rd bits s = .next ((s.setRbs r).setMode (.busy (some bits))) := by
  rw [genStep, if_neg (ne_true_of_eq_false nonzero), h]

theorem genStep_found (nonzero : s.params.spt.contains 0#64 = false)
    (h : genIter bits.toNat s.params.spt s.rbs = (some c, r)) :
    genStep rd bits s = .next ((s.setRbs r).writeV rd c).complete := by
  rw [genStep, if_neg (ne_true_of_eq_false nonzero), h]
  rfl

end

/-- Settles O53: the two ways to begin or go on are one iteration each, and its outcome is split by the filter and the
tester. -/
theorem genprimeIteration : Obligations.GenprimeIteration := by
  refine ⟨fun s rd ra begins exceeds => ?_, fun s rd ra bits nonzero turn => ?_⟩
  · rw [exec_genprime_begins begins, exceeds, Bool.not_true, require_false]
  have iteration : exec (.genprime rd ra) s = genStep rd bits s := by
    rcases turn with goes | ⟨begins, rfl, within⟩
    · exact exec_genprime_goesOn goes
    · rw [exec_genprime_begins begins, within, Bool.not_false, require_true]
  have drawn := candidate_eq bits.toNat s.rbs
  have undivided_iff := tableDivides_eq_false_iff (limbsOf_valid ((randValue bits.toNat s.rbs).1.val ||| 1)) nonzero
  rw [iteration]
  refine ⟨fun divided => ?_, fun undivided rejected => ?_, fun undivided accepted => ?_⟩
  · exact genStep_retry nonzero (genIter_discarded drawn ((tableDivides_iff (limbsOf_valid _) nonzero).2 divided))
  · exact genStep_retry nonzero (genIter_rejected drawn (undivided_iff.2 undivided) rejected)
  · exact genStep_found nonzero (genIter_accepted drawn (undivided_iff.2 undivided) accepted)

/-- Settles O54: a step that completes is an iteration that found its candidate. -/
theorem genprimeGuarantee : Obligations.GenprimeGuarantee := by
  intro s t rd ra bits turn small ht idle
  have count : (BitVec.ofNat 64 bits).toNat = bits := by rw [BitVec.toNat_ofNat, Nat.mod_eq_of_lt small]
  obtain ⟨nonzero, ⟨x, found, rfl⟩ | ⟨-, rfl⟩⟩ := genStep_next (exec_genprime_idle turn ht idle)
  · rw [count] at found
    have two_le := genIter_found_two_le found
    obtain ⟨rfl, undivided, accepted⟩ := genIter_found found
    have valid := candidate_valid bits s.rbs
    rw [State.complete_readV, State.writeV_readV, if_pos rfl]
    exact ⟨valid, candidate_bitLen (by omega) _, two_le, candidate_odd _ _,
      (tableDivides_eq_false_iff valid nonzero).1 undivided, accepted⟩
  · cases idle

/-- A step of a GENPRIME with a bit count of 0 or 1 only advances the source (46_prime_generator R226). -/
theorem step_genprime_tiny (tiny : bits.toNat ≤ 1) (nonzero : s.params.spt.contains 0#64 = false)
    (dec : decode s.cw = .ok (.genprime rd ra)) (busy : s.mode = .busy (some bits)) (quiet : s.host = []) :
    ∃ r, step s = .next ((s.setRbs r).setMode (.busy (some bits))) :=
  ⟨_, by rw [step_nil quiet, coreTurn_busy busy dec, exec_genprime_goesOn busy,
    genStep_retry nonzero (Prod.ext (genIter_tiny tiny) rfl)]⟩

end

/-- Settles O55, by induction on the number of steps: each keeps every premise, because only the source advances. -/
theorem genprimeOfTinyBitsNeverEnds : Obligations.GenprimeOfTinyBitsNeverEnds := by
  intro s rd ra bits n tiny nonzero dec busy quiet
  induction n generalizing s with
  | zero => exact ⟨s, rfl, busy, rfl, rfl⟩
  | succ n ih =>
    obtain ⟨r, next⟩ := step_genprime_tiny tiny nonzero dec busy quiet
    rw [run_succ next]
    exact ih ((s.setRbs r).setMode (.busy (some bits))) nonzero dec rfl quiet

end Sys2Proof.Machine
end

section
/-! Fault, rest and reset (60_exceptions R241 to R246): what a step from FAULT does, when the CORE rests, and the fault
each command raises by the order of checks of R243. -/
namespace Sys2Proof.Machine

/-- Settles O7: out of BUSY the CORE's turn is no change, and STATUS is 2 in FAULT and 0 in IDLE. -/
theorem coreRestsUnlessBusy : Obligations.CoreRestsUnlessBusy := by
  refine fun s rest => ⟨fun hh => ?_, fun es hh => ?_, fun es hh => ?_⟩
  · rw [step_nil hh, coreTurn_rest rest]
  · rw [step_pass hh, coreTurn_rest (s := s.setHost es) rest]
  · have status : s.statusWord = if s.mode = .fault then 2#64 else 0#64 := by
      rw [State.statusWord]
      cases hm : s.mode with
      | idle => rfl
      | busy b => exact absurd hm (rest b)
      | fault => rfl
    rw [step_poll hh, isBusy_false rest, if_neg Bool.false_ne_true, status]
    rfl

/-- Settles O15: from FAULT a step is a reset, or an access or rest that writes the host's fields only. -/
theorem faultIsFinalUntilReset : Obligations.FaultIsFinalUntilReset := by
  intro s t hm h
  cases step_effect h with
  | reset es who =>
    refine ⟨fun noReset => ?_, fun _ => ⟨rfl, rfl, rfl, State.resetCore_readV _, State.resetCore_readS _⟩⟩
    obtain ⟨e, he, resets⟩ := who
    exact absurd (noReset e he) (ne_false_of_eq_true resets)
  | access _ _ _ who => exact ⟨fun _ => ⟨hm, rfl, rfl, rfl, rfl⟩, fun resets => absurd resets who.not_resets⟩
  | rest _ _ _ who => exact ⟨fun _ => ⟨hm, rfl, rfl, rfl, rfl⟩, fun resets => absurd resets who.not_resets⟩
  | cmdWrite _ idle | scalarWrite _ _ _ _ idle => cases hm.symm.trans idle
  | illegal _ _ _ _ busy | command _ busy => cases hm.symm.trans busy

/-- The fault of the sources `rs`, examined in their order, and else `o` (60_exceptions R243). -/
def sourceFault (rs : List VReg) (o : Option FaultCode) (s : State) : Option FaultCode :=
  if rs.any fun r => !(s.readV r).valid then some .invariant else o

theorem specFault_eq (i : Instr) (s : State) : specFault i s = sourceFault (valueSources i) (ownFault i s) s := rfl

/-- The answer `e` of a command on `s` is entry to the fault `o` and, where `o` is none, no next state in FAULT. -/
def Raises (s : State) (o : Option FaultCode) (e : Res) : Prop :=
  (∀ c, o = some c → e = .next (s.raise c)) ∧ (o = none → ∀ t, e = .next t → t.mode ≠ .fault)

section
variable {s u : State} {o : Option FaultCode} {e : Res} {k : Value → Res} {c : FaultCode} {r : VReg} {q : SReg}
  {rs : List VReg}

@[simp] theorem sourceFault_nil : sourceFault [] o s = o := rfl

theorem sourceFault_cons_valid (h : (s.readV r).valid = true) : sourceFault (r :: rs) o s = sourceFault rs o s := by
  rw [sourceFault, List.any_cons, h, Bool.not_true, Bool.false_or, sourceFault]

theorem sourceFault_cons_invalid (h : (s.readV r).valid = false) : sourceFault (r :: rs) o s = some .invariant := by
  rw [sourceFault, List.any_cons, h, Bool.not_false, Bool.true_or, if_pos rfl]

theorem raises_some (h : e = .next (s.raise c)) : Raises s (some c) e := ⟨fun _ hc => Option.some.inj hc ▸ h, nofun⟩

theorem raises_none (h : ∀ t, e = .next t → t.mode ≠ .fault) : Raises s none e := ⟨nofun, fun _ => h⟩

/-- The first source is asserted before the rest of the command is run (60_exceptions R243). -/
theorem raises_source (h : (s.readV r).valid = true → Raises s (sourceFault rs o s) (k (s.readV r))) :
    Raises s (sourceFault (r :: rs) o s) (withValue r s k) := by
  cases valid : (s.readV r).valid with
  | true =>
    rw [sourceFault_cons_valid valid, withValue_valid valid]
    exact h valid
  | false =>
    rw [sourceFault_cons_invalid valid]
    exact raises_some (withValue_invalid valid)

theorem raises_require {ok : Bool} (own : o = if ok then none else some c) (h : Raises s none e) :
    Raises s o (require ok c s e) := by
  subst own
  cases ok with
  | true => exact h
  | false => exact raises_some require_false

theorem raises_require_not {bad : Bool} (h : Raises s none e) :
    Raises s (if bad then some c else none) (require (!bad) c s e) :=
  raises_require (by cases bad <;> rfl) h

theorem raises_require_ne_zero {m : Value} (valid : m.valid = true) (h : Raises s none e) :
    Raises s (if m.val = 0 then some c else none) (require (m ≠ Value.zero) c s e) :=
  raises_require (by simp only [decide_eq_true_eq, ← eq_zero_iff valid, ne_eq, ite_not]) h

theorem raises_finishV {x : Value} : Raises s none (finishV r x u) :=
  raises_none fun _ ht => by rw [finishV_next.1 ht]; exact nofun

theorem raises_finishS {w : Word} : Raises s none (finishS q w u) :=
  raises_none fun _ ht => by rw [finishS_next.1 ht]; exact nofun

theorem raises_finishCount {n : Nat} : Raises s none (finishCount q n u) :=
  raises_none fun _ ht => by rw [(finishCount_next ht).2]; exact nofun

theorem raises_complete : Raises s none (.next u.complete) :=
  raises_none fun _ ht => by rw [← Host.Outcome.next.inj ht]; exact nofun

theorem raises_genStep {bits : Word} : Raises s none (genStep r bits u) := by
  refine raises_none fun t ht => ?_
  rcases (genStep_next ht).2 with ⟨x, -, rfl⟩ | ⟨-, rfl⟩ <;> exact nofun

/-- A result that is `limbs(n)` is checked on the number. -/
theorem raises_finishChecked {x : Value} {n : Nat} (hx : x = limbsOf n) (legal : s.lmaxLegal = true) :
    Raises s (if s.holds n then none else some .capacity) (finishChecked r x s) :=
  raises_require (by rw [hx, overLimbs_limbsOf legal, Bool.not_not]) raises_finishV

end

/-- A number of at most `64*LMAX` bits is one a value register can hold (10_state R22, R23). -/
theorem overBits_log2 (s : State) {n : Nat} (h0 : n ≠ 0) : s.overBits (Nat.log2 n + 1) = !s.holds n := by
  rw [State.overBits, State.holds]
  cases s.params.lmax with
  | none => rfl
  | some l =>
    have bits : Nat.log2 n + 1 ≤ 64 * l ↔ n < 2 ^ (64 * l) := Nat.log2_lt h0
    simp only [← bits, ← decide_not, not_le]

theorem log2_mul_two_pow {n : Nat} (h0 : n ≠ 0) (k : Nat) : Nat.log2 (n * 2 ^ k) = Nat.log2 n + k := by
  have lower := Nat.log2_self_le h0
  have upper : n < 2 ^ (Nat.log2 n + 1) := Nat.lt_log2_self
  rw [Nat.log2_eq_iff (by positivity), Nat.add_right_comm, Nat.pow_add, Nat.pow_add _ _ k]
  exact ⟨Nat.mul_le_mul_right _ lower, Nat.mul_lt_mul_of_pos_right upper (by positivity)⟩

theorem holds_zero (s : State) : s.holds 0 = true := by
  rw [State.holds]
  cases s.params.lmax with
  | none => rfl
  | some l => exact decide_eq_true (by positivity)

/-- SHL's precondition is that a register can hold the shifted number (42_shift R150). -/
theorem shl_precondition_holds {a : Value} (valid : a.valid = true) (s : State) (k : Nat) :
    (a = Value.zero || !s.overBits (bitLen a + k)) = s.holds (a.val * 2 ^ k) := by
  by_cases h0 : a.val = 0
  · simp [eq_zero_iff valid, h0, holds_zero]
  · have bits : bitLen a + k = Nat.log2 (a.val * 2 ^ k) + 1 := by
      rw [bitLen_eq valid, if_neg h0, log2_mul_two_pow h0, Nat.add_right_comm]
    rw [bits, overBits_log2 s (by positivity)]
    simp [eq_zero_iff valid, h0]

theorem raises_genprime (s : State) (rd : VReg) (ra : SReg) :
    Raises s (ownFault (.genprime rd ra) s) (exec (.genprime rd ra) s) := by
  have begins (h : ∀ b, s.mode ≠ .busy (some b)) :
      Raises s (if s.overBits (s.readS ra).toNat then some .capacity else none) (exec (.genprime rd ra) s) := by
    rw [exec_genprime_begins h]
    exact raises_require_not raises_genStep
  rw [ownFault]
  rcases hm : s.mode with _ | (_ | bits) | _
  · exact begins (by simp [hm])
  · exact begins (by simp [hm])
  · rw [exec_genprime_goesOn hm]
    exact raises_genStep
  · exact begins (by simp [hm])

/-- Every command raises the fault the spec names for it, by asserting its sources in their order, then its own
precondition or the capacity of its result (60_exceptions R242, R243). -/
theorem exec_raises {s : State} (i : Instr) (legal : s.lmaxLegal = true) : Raises s (specFault i s) (exec i s) := by
  rw [specFault_eq]
  cases i with
  | wrap rd ra => exact raises_finishV
  | random rd ra => exact raises_require_not raises_finishV
  | mov rd ra =>
    rw [exec, execMov]
    exact raises_source fun _ => raises_finishV
  | vchk ra =>
    rw [exec, execVchk]
    exact raises_source fun _ => raises_complete
  | vlen rd ra =>
    rw [exec, execVlen]
    exact raises_source fun _ => raises_finishCount
  | vgetl rd ra rb =>
    rw [exec, execVgetl]
    refine raises_source fun _ => raises_require ?_ raises_finishS
    simp only [sourceFault_nil, ownFault, decide_eq_true_eq, ← not_le, ite_not]
  | add rd ra rb =>
    rw [exec, execAdd]
    exact raises_source fun _ => raises_source fun _ => raises_finishChecked (addV_eq_limbsOf _ _) legal
  | sub rd ra rb =>
    rw [exec, execSub]
    refine raises_source fun va => raises_source fun vb => raises_require ?_ raises_finishV
    simp only [sourceFault_nil, ownFault, compareV_bne_lt va vb, decide_eq_true_eq, ← not_lt, ite_not]
  | mul rd ra rb =>
    rw [exec, execMul]
    exact raises_source fun _ => raises_source fun _ => raises_finishChecked (mulV_eq_limbsOf _ _) legal
  | shl rd ra rb =>
    rw [exec, execShl]
    refine raises_source fun va => raises_require ?_ raises_finishV
    rw [sourceFault_nil, ownFault, shl_precondition_holds va]
  | shr rd rb =>
    rw [exec, execShr]
    exact raises_source fun _ => raises_finishV
  | rem rd ra rb =>
    rw [exec, execRem]
    exact raises_source fun _ => raises_source fun vb => raises_require_ne_zero vb raises_finishV
  | cmp rd ra rb =>
    rw [exec, execCmp]
    exact raises_source fun _ => raises_source fun _ => raises_finishS
  | cmpw rd ra rb =>
    rw [exec, execCmpw]
    exact raises_source fun _ => raises_finishS
  | bitlen rd ra =>
    rw [exec, execBitlen]
    exact raises_source fun _ => raises_finishCount
  | tzcnt rd ra =>
    rw [exec, execTzcnt]
    exact raises_source fun _ => raises_finishCount
  | parity rd ra =>
    rw [exec, execParity]
    exact raises_source fun _ => raises_finishS
  | dec rd =>
    rw [exec, execDec]
    exact raises_source fun valid => raises_require_ne_zero valid raises_finishV
  | orw rd rb =>
    rw [exec, execOrw]
    exact raises_source fun _ => raises_finishV
  | modpow rd ra rb rc =>
    rw [exec, execModpow]
    exact raises_source fun _ => raises_source fun _ => raises_source fun vc => raises_require_ne_zero vc raises_finishV
  | modpoww rd ra rb rc =>
    rw [exec, execModpoww]
    exact raises_source fun _ => raises_source fun vc => raises_require_ne_zero vc raises_finishV
  | mrtest rd ra rb =>
    rw [exec, execMrtest]
    exact raises_source fun _ => raises_finishS
  | genprime rd ra => exact raises_genprime s rd ra

/-- Settles O16: a command raises its fault by `State.raise`, which is the entry of 60_exceptions R244, and so does the
CORE's turn on an illegal word. -/
theorem faultsAreExactlyTheSpecs : Obligations.FaultsAreExactlyTheSpecs :=
  ⟨fun i _ legal => exec_raises i legal, fun _ _ _ busy quiet dec => (step_nil quiet).trans (coreTurn_illegal busy dec)⟩

end Sys2Proof.Machine
end

section
/-! The invariant of reachable states (60_exceptions R253): reset meets it, every step keeps it, and under it no source
is invalid. -/
namespace Sys2Proof.Machine

variable {s t : State} {i : Instr}

theorem ParamsWf.lmaxLegal (wf : ParamsWf s.params) : s.lmaxLegal = true :=
  bne_iff_ne.2 fun h0 => (wf.lmaxPos 0 h0).ne rfl

/-- One limb is always within capacity, because LMAX is positive. -/
theorem overLimbs_one (legal : s.lmaxLegal = true) : s.overLimbs 1 = false := by
  rw [State.lmaxLegal, bne_iff_ne] at legal
  rw [State.overLimbs]
  cases hl : s.params.lmax with
  | none => rfl
  | some l =>
    have pos : l ≠ 0 := fun h0 => legal (h0 ▸ hl)
    exact decide_eq_false (by omega)

theorem resetCore_inv (wf : ParamsWf s.params) : s.resetCore.Inv where
  params := wf
  valid _ := by rw [State.resetCore_readV, zero_valid]
  within _ := by
    rw [State.resetCore_readV]
    exact overLimbs_one (ParamsWf.lmaxLegal wf)
  code := by simp
  noWord _ := rfl
  generating := nofun

theorem paramsWf_unbounded : ParamsWf ⟨none, [], 0⟩ where
  lmaxPos := nofun
  ascending := .nil
  primes := nofun
  complete _ prime le := absurd prime.pos le.not_gt

/-- Settles O19: the state after reset is one that a reset leaves as it is. -/
theorem resetMeetsTheInvariant : Obligations.ResetMeetsTheInvariant :=
  ⟨fun p wf => resetCore_inv (s := State.resetWith p) wf, resetCore_inv (s := State.reset) paramsWf_unbounded⟩

/-- Out of FAULT no code is recorded (10_state R31). -/
theorem State.Inv.faultCode_eq_none (inv : s.Inv) (h : s.mode ≠ .fault) : s.faultCode = none := by
  simpa using mt inv.code.2 h

/-! Values a register may hold -/

/-- A value that a register of `s` may hold: normalized and within capacity (10_state R21, R23). -/
structure State.Fits (s : State) (x : Value) : Prop where
  valid : x.valid = true
  within : s.overLimbs x.len = false

theorem State.Inv.fits (inv : s.Inv) (r : VReg) : s.Fits (s.readV r) := ⟨inv.valid r, inv.within r⟩

section
variable {a x : Value} {m n : Nat}

theorem overLimbs_of_le (h : m ≤ n) (within : s.overLimbs n = false) : s.overLimbs m = false := by
  unfold State.overLimbs at within ⊢
  cases hl : s.params.lmax with
  | none => rfl
  | some l =>
    simp only [hl, decide_eq_false_iff_not, not_lt] at within ⊢
    exact h.trans within

/-- A result not above an operand fits where the operand does. -/
theorem State.Fits.of_val_le (fit : s.Fits a) (valid : x.valid = true) (h : x.val ≤ a.val) : s.Fits x :=
  ⟨valid, overLimbs_of_le (len_le_of_val_le valid h) fit.within⟩

/-- A value of at most `64*LMAX` bits fits. -/
theorem fits_of_val_lt (legal : s.lmaxLegal = true) (valid : x.valid = true) (h : x.val < 2 ^ n)
    (within : s.overBits n = false) : s.Fits x := by
  refine ⟨valid, ?_⟩
  rw [← limbsOf_of_val valid, overLimbs_limbsOf legal, Bool.not_eq_false']
  unfold State.overBits at within
  unfold State.holds
  cases hl : s.params.lmax with
  | none => rfl
  | some l =>
    simp only [hl, decide_eq_false_iff_not, not_lt] at within
    exact decide_eq_true (h.trans_le (Nat.pow_le_pow_right two_pos within))

theorem fits_ofWord (legal : s.lmaxLegal = true) (w : Word) : s.Fits (Value.ofWord w) :=
  ⟨ofWord_valid w, overLimbs_one legal⟩

theorem fits_randValue (legal : s.lmaxLegal = true) (within : s.overBits n = false) (r : Rbs) :
    s.Fits (randValue n r).1 := by
  refine fits_of_val_lt legal (randValue_valid n r) ?_ within
  rcases Nat.eq_zero_or_pos n with rfl | pos
  · simp [randValue_zero, zero_val]
  · exact (randValue_bounds pos r).2

theorem State.Fits.subV {b : Value} (fa : s.Fits a) (fb : s.Fits b) (h : (compareV a b != .lt) = true) :
    s.Fits (subV a b) := by
  rw [compareV_bne_lt fa.valid fb.valid, decide_eq_true_iff] at h
  exact fa.of_val_le (subV_valid a b) (by rw [subV_val fb.valid h]; exact Nat.sub_le _ _)

/-- SHL's precondition bounds its result's bits (42_shift R150). -/
theorem State.Fits.shlV (fit : s.Fits a) (legal : s.lmaxLegal = true)
    (h : (a = Value.zero || !s.overBits (bitLen a + n)) = true) : s.Fits (shlV a n) := by
  rw [shl_precondition_holds fit.valid] at h
  exact ⟨shlV_valid a n, by rw [shlV_eq_limbsOf, overLimbs_limbsOf legal, h, Bool.not_true]⟩

theorem State.Fits.shrV (fit : s.Fits a) : s.Fits (shrV a n) :=
  fit.of_val_le (shrV_valid a n) (by rw [shrV_val]; exact Nat.div_le_self _ _)

theorem val_ne_zero (valid : a.valid = true) (h : decide (a ≠ Value.zero) = true) : a.val ≠ 0 :=
  mt (eq_zero_iff valid).2 (of_decide_eq_true h)

theorem State.Fits.remV {M : Value} (fa : s.Fits a) (fm : s.Fits M) (h0 : M.val ≠ 0) : s.Fits (remV a M) := by
  obtain ⟨valid, value⟩ := remV_spec fa.valid fm.valid h0
  exact fa.of_val_le valid (by rw [value]; exact Nat.mod_le _ _)

/-- The power is below the modulus, and 1 at exponent zero is not above it. -/
theorem State.Fits.modPow {B E M : Value} (fb : s.Fits B) (he : E.valid = true) (fm : s.Fits M) (h0 : M.val ≠ 0) :
    s.Fits (modPow B E M) := by
  obtain ⟨valid, value⟩ := modPow_spec fb.valid he fm.valid h0
  refine fm.of_val_le valid ?_
  rw [value]
  split
  · omega
  · exact (Nat.mod_lt _ (by omega)).le

theorem State.Fits.decV (fit : s.Fits a) (h0 : a.val ≠ 0) : s.Fits (decV a) :=
  fit.of_val_le (decV_valid a) (by rw [decV_val h0]; exact Nat.sub_le _ _)

theorem State.Fits.orWordV (fit : s.Fits a) (w : Word) : s.Fits (orWordV a w) := ⟨orWordV_valid fit.valid w, fit.within⟩

theorem fits_found {spt : List Word} {r : Rbs} (legal : s.lmaxLegal = true) (within : s.overBits n = false)
    (h : (genIter n spt r).1 = some x) : s.Fits x := by
  have two_le := genIter_found_two_le h
  obtain ⟨rfl, -⟩ := genIter_found h
  exact fits_of_val_lt legal (candidate_valid n r) (candidate_bounds (by omega) r).2 within

end

/-! What a command leaves in its destination -/

/-- Every next state of the answer `e` holds in the register `r` a value that fits. -/
def LeavesFit (r : VReg) (s : State) (e : Res) : Prop := ∀ t, e = .next t → s.Fits (t.readV r)

section
variable {r q : VReg} {k : Value → Res} {e : Res} {c : FaultCode} {x : Value}

theorem leavesFit_raise (inv : s.Inv) : LeavesFit r s (.next (s.raise c)) :=
  fun _ ht => Host.Outcome.next.inj ht ▸ inv.fits r

theorem leavesFit_withValue (inv : s.Inv) (h : LeavesFit r s (k (s.readV q))) : LeavesFit r s (withValue q s k) := by
  rwa [withValue_valid (inv.valid q)]

theorem leavesFit_require {ok : Bool} (inv : s.Inv) (h : ok = true → LeavesFit r s e) :
    LeavesFit r s (require ok c s e) := by
  cases ok with
  | true => exact h rfl
  | false => exact leavesFit_raise inv

theorem leavesFit_finishV_drawn {b : Rbs} (h : s.Fits x) : LeavesFit r s (finishV r x (s.setRbs b)) := by
  intro t ht
  rw [finishV_next.1 ht, State.complete_readV, State.writeV_readV, if_pos rfl]
  exact h

theorem leavesFit_finishV (h : s.Fits x) : LeavesFit r s (finishV r x s) := leavesFit_finishV_drawn (b := s.rbs) h

theorem leavesFit_finishChecked (inv : s.Inv) (valid : x.valid = true) : LeavesFit r s (finishChecked r x s) :=
  leavesFit_require inv fun within => leavesFit_finishV ⟨valid, by simpa using within⟩

end

/-- Between reachable states a GENPRIME that goes on could as well begin: the count it holds is its register's and
within capacity (46_prime_generator R221, R223). -/
theorem exec_genprime_eq {rd : VReg} {ra : SReg} (inv : s.Inv) (dec : decode s.cw = .ok (.genprime rd ra)) :
    exec (.genprime rd ra) s =
      require (!s.overBits (s.readS ra).toNat) .capacity s (genStep rd (s.readS ra) s) := by
  by_cases goes : ∃ b, s.mode = .busy (some b)
  · obtain ⟨b, busy⟩ := goes
    obtain ⟨rd', ra', dec', rfl, within⟩ := inv.generating b busy
    cases dec.symm.trans dec'
    rw [exec_genprime_goesOn busy, within, Bool.not_false, require_true]
  · exact exec_genprime_begins fun b busy => goes ⟨b, busy⟩

theorem genStep_leavesFit {rd : VReg} {bits : Word} (inv : s.Inv) (within : s.overBits bits.toNat = false) :
    LeavesFit rd s (genStep rd bits s) := by
  intro t ht
  obtain ⟨-, ⟨x, found, rfl⟩ | ⟨-, rfl⟩⟩ := genStep_next ht
  · rw [State.complete_readV, State.writeV_readV, if_pos rfl]
    exact fits_found inv.params.lmaxLegal within found
  · exact inv.fits rd

/-- The value a command writes fits its register. -/
theorem exec_leavesFit {rd : VReg} (inv : s.Inv) (dec : decode s.cw = .ok i) (dest : valueDest i = some rd) :
    LeavesFit rd s (exec i s) := by
  have legal := inv.params.lmaxLegal
  cases i with
  | vchk | vlen | vgetl | cmp | cmpw | bitlen | tzcnt | parity | mrtest => cases dest
  | wrap _ ra =>
    cases dest
    exact leavesFit_finishV (fits_ofWord legal _)
  | random _ ra =>
    cases dest
    rw [exec, execRandom]
    exact leavesFit_require inv fun within => leavesFit_finishV_drawn (fits_randValue legal (by simpa using within) _)
  | mov _ ra =>
    cases dest
    rw [exec, execMov]
    exact leavesFit_withValue inv (leavesFit_finishV (inv.fits ra))
  | add _ ra rb =>
    cases dest
    rw [exec, execAdd]
    exact leavesFit_withValue inv (leavesFit_withValue inv (leavesFit_finishChecked inv (addV_valid _ _)))
  | sub _ ra rb =>
    cases dest
    rw [exec, execSub]
    exact leavesFit_withValue inv (leavesFit_withValue inv (leavesFit_require inv fun enough =>
      leavesFit_finishV ((inv.fits ra).subV (inv.fits rb) enough)))
  | mul _ ra rb =>
    cases dest
    rw [exec, execMul]
    exact leavesFit_withValue inv (leavesFit_withValue inv (leavesFit_finishChecked inv (mulV_valid _ _)))
  | shl _ ra rb =>
    cases dest
    rw [exec, execShl]
    exact leavesFit_withValue inv (leavesFit_require inv fun within =>
      leavesFit_finishV ((inv.fits ra).shlV legal within))
  | shr _ rb =>
    cases dest
    rw [exec, execShr]
    exact leavesFit_withValue inv (leavesFit_finishV (inv.fits rd).shrV)
  | rem _ ra rb =>
    cases dest
    rw [exec, execRem]
    exact leavesFit_withValue inv (leavesFit_withValue inv (leavesFit_require inv fun nonzero =>
      leavesFit_finishV ((inv.fits ra).remV (inv.fits rb) (val_ne_zero (inv.valid rb) nonzero))))
  | dec _ =>
    cases dest
    rw [exec, execDec]
    exact leavesFit_withValue inv (leavesFit_require inv fun nonzero =>
      leavesFit_finishV ((inv.fits rd).decV (val_ne_zero (inv.valid rd) nonzero)))
  | orw _ rb =>
    cases dest
    rw [exec, execOrw]
    exact leavesFit_withValue inv (leavesFit_finishV ((inv.fits rd).orWordV _))
  | modpow _ ra rb rc =>
    cases dest
    rw [exec, execModpow]
    exact leavesFit_withValue inv (leavesFit_withValue inv (leavesFit_withValue inv (leavesFit_require inv
      fun nonzero => leavesFit_finishV
        ((inv.fits ra).modPow (inv.valid rb) (inv.fits rc) (val_ne_zero (inv.valid rc) nonzero)))))
  | modpoww _ ra rb rc =>
    cases dest
    rw [exec, execModpoww]
    exact leavesFit_withValue inv (leavesFit_withValue inv (leavesFit_require inv fun nonzero =>
      leavesFit_finishV
        ((inv.fits ra).modPow (ofWord_valid _) (inv.fits rc) (val_ne_zero (inv.valid rc) nonzero))))
  | genprime _ ra =>
    cases dest
    rw [exec_genprime_eq inv dec]
    exact leavesFit_require inv fun within => genStep_leavesFit inv (by simpa using within)

/-- A command that does not fault leaves in every value register what fits: the destination by its result, the others by
the frame. -/
theorem exec_fits (inv : s.Inv) (dec : decode s.cw = .ok i) (h : exec i s = .next t) (ht : t.mode ≠ .fault)
    (r : VReg) : s.Fits (t.readV r) := by
  obtain ⟨frame, -⟩ := commandsChangeOnlyTheirDestination i s t h ht
  by_cases dest : valueDest i = some r
  · exact exec_leavesFit inv dec dest t h
  · rw [frame r dest]
    exact inv.fits r

/-- A command that leaves the CORE BUSY is a GENPRIME, whose count is its register's and within capacity. -/
theorem exec_generating {b : Word} (inv : s.Inv) (dec : decode s.cw = .ok i) (h : exec i s = .next t)
    (busy : t.mode = .busy (some b)) :
    ∃ rd ra, decode t.cw = .ok (.genprime rd ra) ∧ t.readS ra = b ∧ t.overBits b.toNat = false := by
  rcases exec_mode h with ⟨c, rfl⟩ | idle | ⟨rd, ra, -, rfl, -⟩
  · cases busy
  · cases idle.symm.trans busy
  · rw [exec_genprime_eq inv dec] at h
    rcases require_next h with ⟨within, iteration⟩ | ⟨-, rfl⟩
    · obtain ⟨-, ⟨x, -, rfl⟩ | ⟨-, rfl⟩⟩ := genStep_next iteration
      · cases busy
      · cases busy
        exact ⟨rd, ra, dec, rfl, (Bool.not_eq_true' _).mp within⟩
    · cases busy

/-! The invariant, step by step -/

theorem State.Inv.hostSide (inv : s.Inv) (es : List HostEvent) (w : Option Word) (n : Nat) : (s.hostSide es w n).Inv :=
  ⟨inv.params, inv.valid, inv.within, inv.code, inv.noWord, inv.generating⟩

theorem State.Inv.raise (inv : s.Inv) (c : FaultCode) : (s.raise c).Inv :=
  ⟨inv.params, inv.valid, inv.within, iff_of_true rfl rfl, nofun, nofun⟩

/-- What keeps the invariant between two states out of FAULT: parameters and FAULTINFO as they were, registers that fit,
and BUSY with a count only for a GENPRIME. -/
theorem State.Inv.of_fits (inv : s.Inv) (hs : s.mode ≠ .fault) (ht : t.mode ≠ .fault) (params : t.params = s.params)
    (code : t.faultCode = s.faultCode) (word : t.faultCw = s.faultCw) (fits : ∀ r, s.Fits (t.readV r))
    (generating : ∀ b, t.mode = .busy (some b) →
      ∃ rd ra, decode t.cw = .ok (.genprime rd ra) ∧ t.readS ra = b ∧ t.overBits b.toNat = false) : t.Inv where
  params := params ▸ inv.params
  valid r := (fits r).valid
  within r := by
    rw [State.overLimbs, params]
    exact (fits r).within
  code := iff_of_false ht (by simp [code, inv.faultCode_eq_none hs])
  noWord _ := word.trans (inv.noWord (inv.faultCode_eq_none hs))
  generating := generating

theorem exec_inv {b : Option Word} (inv : s.Inv) (busy : s.mode = .busy b) (dec : decode s.cw = .ok i)
    (h : exec i s = .next t) : t.Inv := by
  by_cases ht : t.mode = .fault
  · obtain ⟨c, rfl⟩ := (exec_effect h).eq_raise ht
    exact inv.raise c
  · obtain ⟨-, -, -, params, -, code, word, -⟩ := commandsChangeOnlyTheirDestination i s t h ht
    exact inv.of_fits (by simp [busy]) ht params code word (exec_fits inv dec h ht) fun _ => exec_generating inv dec h

/-- The CORE's turn on a command is the command, on a state that differs from `s` in the host's fields only. -/
theorem step_eq_exec {b : Option Word} (who : s.coresTurn) (busy : s.mode = .busy b) (dec : decode s.cw = .ok i) :
    ∃ es w n, step s = exec i (s.hostSide es w n) := by
  obtain ⟨turn, -⟩ := stepRunsTheDecodedCommand
  obtain ⟨quiet, passes, polls⟩ := turn s b i busy dec
  rcases hh : s.host with _ | ⟨e, es⟩
  · exact ⟨s.host, s.reply, s.free, quiet hh⟩
  · obtain ⟨noReset, noAccess⟩ := who e (by simp [hh])
    cases e with
    | pass => exact ⟨es, s.reply, s.free, passes es hh⟩
    | poll => exact ⟨s.host, some 1#64, s.free, polls es hh⟩
    | powerOn => cases noReset
    | read | write => cases noAccess

/-- Settles O20: each effect of a step keeps the invariant, the command's by `exec_inv`. -/
theorem stepKeepsTheInvariant : Obligations.StepKeepsTheInvariant := by
  intro s t inv h
  cases step_effect h with
  | reset es => exact resetCore_inv (s := s.setHost es) inv.params
  | cmdWrite _ idle => exact inv.of_fits (by simp [idle]) nofun rfl rfl rfl inv.fits nofun
  | scalarWrite i w es _ idle =>
    exact inv.of_fits (by simp [idle]) (by simp [idle]) rfl rfl rfl inv.fits (by simp [idle])
  | access es w n => exact inv.hostSide es w n
  | rest es w n => exact inv.hostSide es w n
  | illegal es w n => exact (inv.hostSide es w n).raise _
  | command who busy dec =>
    obtain ⟨es, w, n, run⟩ := step_eq_exec who busy dec
    exact exec_inv (inv.hostSide es w n) busy dec (run.symm.trans h)

/-! The fault INVARIANT -/

theorem ownFault_ne_invariant (i : Instr) (s : State) : ownFault i s ≠ some .invariant := by
  cases i with
  | genprime rd ra =>
    rw [ownFault]
    rcases s.mode with _ | (_ | bits) | _ <;> simp
  | _ => simp [ownFault]

/-- Under the invariant every source is normalized, so the fault of a command is its own (60_exceptions R253). -/
theorem specFault_eq_ownFault (inv : s.Inv) (i : Instr) : specFault i s = ownFault i s := by
  have sources : ((valueSources i).any fun r => !(s.readV r).valid) = false := by simp [inv.valid]
  rw [specFault, sources, if_neg Bool.false_ne_true]

theorem exec_faultCode_ne_invariant (inv : s.Inv) (hs : s.faultCode ≠ some .invariant) (h : exec i s = .next t) :
    t.faultCode ≠ some .invariant := by
  obtain ⟨raised, quiet⟩ := exec_raises (s := s) i inv.params.lmaxLegal
  rw [specFault_eq_ownFault inv] at raised quiet
  cases own : ownFault i s with
  | some c =>
    cases (raised c own).symm.trans h
    rw [State.raise_faultCode, ← own]
    exact ownFault_ne_invariant i s
  | none =>
    obtain ⟨-, -, -, -, -, code, -⟩ := commandsChangeOnlyTheirDestination i s t h (quiet own t h)
    rwa [code]

/-- Settles O21: only a command could raise INVARIANT, and its sources are normalized. -/
theorem invariantFaultIsUnreachable : Obligations.InvariantFaultIsUnreachable := by
  intro s t inv hs h
  cases step_effect h with
  | reset => exact nofun
  | cmdWrite | scalarWrite | access | rest => exact hs
  | illegal => simp
  | command who busy dec =>
    obtain ⟨es, w, n, run⟩ := step_eq_exec who busy dec
    exact exec_faultCode_ne_invariant (inv.hostSide es w n) hs (run.symm.trans h)

end Sys2Proof.Machine
end

section
/-! Reset (70_reset_and_hazards R270, R271): both sources lead to the same state, and that state meets the table of
10_state R37. -/
namespace Sys2Proof.Machine

variable {s : State} {es : List HostEvent}

@[simp] theorem State.resetCore_statusWord (s : State) : s.resetCore.statusWord = 0#64 := rfl

@[simp] theorem State.resetCore_faultInfoWord (s : State) : s.resetCore.faultInfoWord = 0#64 := by
  simp [State.faultInfoWord]

/-- The state after reset is one that a reset leaves as it is. -/
theorem State.resetWith_resetCore (p : Params) : (State.resetWith p).resetCore = State.resetWith p := rfl

/-- The two reset sources have the same effect (70_reset_and_hazards R270). -/
theorem step_of_reset_source
    (source : s.host = .powerOn :: es ∨ ∃ v : Word, v.getLsbD 0 = true ∧ s.host = .write 0x18 64 v :: es) :
    step s = .next (s.setHost es).resetCore := by
  rcases source with powerOn | ⟨v, bit0, write⟩
  · exact step_powerOn powerOn
  · obtain ⟨resets, -⟩ := controlRegisterAccess s es
    exact resets v write bit0

/-- Settles O10: both sources step to `State.resetCore`, whose registers are those of the table, and the state the
model starts from is `State.resetCore` of itself. -/
theorem resetReachesTheResetTable : Obligations.ResetReachesTheResetTable := by
  refine ⟨fun s es source => ?_, fun p => ?_⟩
  · exact ⟨_, step_of_reset_source source, State.resetCore_readV _, State.resetCore_readS _, State.resetCore_mode _,
      State.resetCore_statusWord _, State.resetCore_faultInfoWord _, State.resetCore_params _, State.resetCore_rbs _⟩
  · rw [← State.resetWith_resetCore p]
    exact ⟨State.resetCore_readV _, State.resetCore_readS _, State.resetCore_mode _, State.resetCore_statusWord _,
      State.resetCore_faultInfoWord _, rfl⟩

end Sys2Proof.Machine
end
